-- ==== Sys2Proof/Word.lean ====
section
/-! DEFINITION. The word types of MBFC: unsigned bytes, 16-bit fields, 32-bit registers and bus data
(00_scope.md section 4, 10_state.md R8, 20_memory.md R31), and 17-bit block addresses (20_memory.md R32). -/

namespace Sys2Proof

/-- A byte: FBUF bytes, ADDR, FC, EXCODE, SUM and the DATA field. -/
abbrev Byte := BitVec 8

/-- A 16-bit field: CRC, PLEN and FLEN. -/
abbrev Half := BitVec 16

/-- A 32-bit register, bus word or command word. -/
abbrev Word := BitVec 32

/-- A 17-bit byte address, the offset from the block's base address (20_memory.md R32). -/
abbrev BlockAddr := BitVec 17

end Sys2Proof
end

