-- ==== Sys2Proof/Syntax.lean ====
section
/-! DEFINITION. The commands of MBFC, one constructor per row of spec/opcode_table.json (30_encoding.md R49).
A command word carries one operand, the DATA byte, and only CRC_BYTE, LRC_BYTE and ENC_EXC take it (R47, R48). -/

namespace Sys2Proof

/-- The eleven commands of 30_encoding.md R49. -/
inductive Instr where
  /-- CRC_INIT, 40_checksum.md R63. -/
  | crcInit
  /-- CRC_BYTE, 40_checksum.md R64; `data` is the byte to fold in. -/
  | crcByte (data : Byte)
  /-- CRC_BUF, 40_checksum.md R65. -/
  | crcBuf
  /-- LRC_INIT, 40_checksum.md R66. -/
  | lrcInit
  /-- LRC_BYTE, 40_checksum.md R67; `data` is the byte to add. -/
  | lrcByte (data : Byte)
  /-- LRC_BUF, 40_checksum.md R68. -/
  | lrcBuf
  /-- ENC_QUERY, 41_frame_codec.md R69. -/
  | encQuery
  /-- ENC_RESP, 41_frame_codec.md R70. -/
  | encResp
  /-- ENC_EXC, 41_frame_codec.md R71; `code` is the exception code. -/
  | encExc (code : Byte)
  /-- DECODE, 41_frame_codec.md R72. -/
  | decode
  /-- CLR_ERR, 42_control.md R80. -/
  | clrErr
deriving DecidableEq, Repr

end Sys2Proof
end

