-- ==== Sys2Proof/WellFormed.lean ====
section
/-! DEFINITION. When a command word is well formed: the three checks of the command decoder
(30_encoding.md R50, R51; 42_control.md R78), and that a command's own fields pass them. -/

namespace Sys2Proof

/-- The three fields of a command word (30_encoding.md R47), before any check. -/
structure CommandWord where
  /-- OPC, bits [7:0]. -/
  opc : Byte
  /-- DATA, bits [15:8]. -/
  data : Byte
  /-- RSV, bits [31:16]. -/
  rsv : Half
deriving DecidableEq, Repr

/-- RSV must be 0 (30_encoding.md R51). -/
def CommandWord.rsvIsZero (c : CommandWord) : Bool := c.rsv == 0#16

/-- OPC is one of the eleven of the opcode map (30_encoding.md R49, R50). -/
def CommandWord.opcIsAssigned (c : CommandWord) : Bool :=
  [0x01#8, 0x02#8, 0x03#8, 0x04#8, 0x05#8, 0x06#8, 0x10#8, 0x11#8, 0x12#8, 0x20#8, 0x30#8].contains c.opc

/-- OPC names a command that takes the DATA byte: CRC_BYTE, LRC_BYTE, ENC_EXC (30_encoding.md R49). -/
def CommandWord.takesByte (c : CommandWord) : Bool :=
  [0x02#8, 0x05#8, 0x12#8].contains c.opc

/-- DATA must be 0 for a command without a byte operand (30_encoding.md R51). -/
def CommandWord.dataIsAllowed (c : CommandWord) : Bool := c.takesByte || c.data == 0#8

/-- The word is one of the eleven commands (30_encoding.md R53). -/
def CommandWord.wellFormed (c : CommandWord) : Bool :=
  c.rsvIsZero && c.opcIsAssigned && c.dataIsAllowed

/-- The OPC of a command (30_encoding.md R49). -/
def Instr.opc : Instr → Byte
  | .crcInit => 0x01#8
  | .crcByte _ => 0x02#8
  | .crcBuf => 0x03#8
  | .lrcInit => 0x04#8
  | .lrcByte _ => 0x05#8
  | .lrcBuf => 0x06#8
  | .encQuery => 0x10#8
  | .encResp => 0x11#8
  | .encExc _ => 0x12#8
  | .decode => 0x20#8
  | .clrErr => 0x30#8

/-- The DATA field of a command: its byte operand, or 0 where it takes none (30_encoding.md R47, R49). -/
def Instr.data : Instr → Byte
  | .crcInit => 0x00#8
  | .crcByte b => b
  | .crcBuf => 0x00#8
  | .lrcInit => 0x00#8
  | .lrcByte b => b
  | .lrcBuf => 0x00#8
  | .encQuery => 0x00#8
  | .encResp => 0x00#8
  | .encExc code => code
  | .decode => 0x00#8
  | .clrErr => 0x00#8

/-- The fields a command is written with. -/
def Instr.fields (i : Instr) : CommandWord := { opc := i.opc, data := i.data, rsv := 0#16 }

/-- A command is well formed when its fields pass the decoder's checks.  Every operand is a byte, so every
term of `Instr` is (Laws/PerInstr.lean proves it for each constructor). -/
def Instr.wellFormed (i : Instr) : Bool := i.fields.wellFormed

end Sys2Proof
end

