-- ==== Sys2Proof/Decode.lean ====
section
/-! DEFINITION. The command decoder, total on 32-bit words, and the encoder (30_encoding.md R46 to R53;
42_control.md R78). A word that is no command is rejected by name; what the block then does is
42_control.md R79 (Machine/Control.lean). -/

namespace Sys2Proof

/-- Why a word is no command. -/
inductive DecodeError where
  /-- RSV ≠ 0 (30_encoding.md R51). -/
  | reservedBits (rsv : Half)
  /-- OPC is not in the opcode map (30_encoding.md R50). -/
  | reservedOpcode (opc : Byte)
  /-- DATA ≠ 0 on a command without a byte operand (30_encoding.md R51). -/
  | dataNotZero (opc data : Byte)
deriving DecidableEq, Repr

/-- The fields of a word: `OPC <- v[7:0]`, `DATA <- v[15:8]`, `RSV <- v[31:16]` (42_control.md R78). -/
def splitCommand (v : Word) : CommandWord :=
  { opc := v.extractLsb' 0 8, data := v.extractLsb' 8 8, rsv := v.extractLsb' 16 16 }

/-- The word of three fields, RSV in the upper bits (30_encoding.md R47). -/
def joinCommand (c : CommandWord) : Word := c.rsv ++ c.data ++ c.opc

/-- A command without a byte operand runs only when DATA = 0 (42_control.md R78). -/
def withoutByte (c : CommandWord) (i : Instr) : Except DecodeError Instr :=
  if c.data = 0#8 then .ok i else .error (.dataNotZero c.opc c.data)

/-- The `case OPC of` of 42_control.md R78, the RSV check passed. -/
def decodeOpcode (c : CommandWord) : Except DecodeError Instr :=
  if c.opc = 0x01#8 then withoutByte c .crcInit
  else if c.opc = 0x02#8 then .ok (.crcByte c.data)
  else if c.opc = 0x03#8 then withoutByte c .crcBuf
  else if c.opc = 0x04#8 then withoutByte c .lrcInit
  else if c.opc = 0x05#8 then .ok (.lrcByte c.data)
  else if c.opc = 0x06#8 then withoutByte c .lrcBuf
  else if c.opc = 0x10#8 then withoutByte c .encQuery
  else if c.opc = 0x11#8 then withoutByte c .encResp
  else if c.opc = 0x12#8 then .ok (.encExc c.data)
  else if c.opc = 0x20#8 then withoutByte c .decode
  else if c.opc = 0x30#8 then withoutByte c .clrErr
  else .error (.reservedOpcode c.opc)

/-- The command decoder (42_control.md R78): the RSV check first, then the opcode. -/
def decodeCommand (v : Word) : Except DecodeError Instr :=
  if (splitCommand v).rsv = 0#16 then decodeOpcode (splitCommand v)
  else .error (.reservedBits (splitCommand v).rsv)

/-- The command word of a command, `{0x0000, DATA, OPC}` (30_encoding.md R47, R54). -/
def encodeCommand (i : Instr) : Word := joinCommand i.fields

/-- One row of the selection patterns of 30_encoding.md R49. -/
structure OpcodeRow where
  mnemonic : String
  pattern : Word
  mask : Word
  /-- The command of the row, given the word's DATA byte. -/
  make : Byte → Instr

/-- `w` matches the row. -/
def OpcodeRow.selects (r : OpcodeRow) (w : Word) : Bool := w &&& r.mask == r.pattern

/-- The selection patterns of 30_encoding.md R49, row by row as spec/opcode_table.json has them.  The decoder
above does not read them; the obligations say that the two agree. -/
def opcodeTable : List OpcodeRow :=
  [ ⟨"CRC_INIT", 0x00000001#32, 0xFFFFFFFF#32, fun _ => .crcInit⟩,
    ⟨"CRC_BYTE", 0x00000002#32, 0xFFFF00FF#32, fun b => .crcByte b⟩,
    ⟨"CRC_BUF", 0x00000003#32, 0xFFFFFFFF#32, fun _ => .crcBuf⟩,
    ⟨"LRC_INIT", 0x00000004#32, 0xFFFFFFFF#32, fun _ => .lrcInit⟩,
    ⟨"LRC_BYTE", 0x00000005#32, 0xFFFF00FF#32, fun b => .lrcByte b⟩,
    ⟨"LRC_BUF", 0x00000006#32, 0xFFFFFFFF#32, fun _ => .lrcBuf⟩,
    ⟨"ENC_QUERY", 0x00000010#32, 0xFFFFFFFF#32, fun _ => .encQuery⟩,
    ⟨"ENC_RESP", 0x00000011#32, 0xFFFFFFFF#32, fun _ => .encResp⟩,
    ⟨"ENC_EXC", 0x00000012#32, 0xFFFF00FF#32, fun b => .encExc b⟩,
    ⟨"DECODE", 0x00000020#32, 0xFFFFFFFF#32, fun _ => .decode⟩,
    ⟨"CLR_ERR", 0x00000030#32, 0xFFFFFFFF#32, fun _ => .clrErr⟩ ]

/-- The 32-bit command word of `nbits` table bits `w`, every bit above them 0. -/
def tableWord (nbits w : Nat) : Word := BitVec.ofNat 32 (w % 2 ^ nbits)

/-- The command this decoder reads from the table's bits.  A command is exactly one 32-bit word (30_encoding.md
R46), so more than 32 bits are no command. -/
def decodeTableWord (nbits w : Nat) : Option Instr :=
  if nbits ≤ 32 then
    match decodeCommand (tableWord nbits w) with
    | .ok i => some i
    | .error _ => none
  else none

end Sys2Proof
end

