-- ==== Sys2Proof/Machine/Checksums.lean ====
section
/-! DEFINITION. The two checksum functions (40_checksum.md R59, R60). -/

namespace Sys2Proof.Machine

/-- One of the eight shifts of `crc16_step` (40_checksum.md R59). -/
def crcShift (c : Half) : Half :=
  if c.getLsbD 0 then (c >>> 1) ^^^ 0xA001#16 else c >>> 1

/-- `k` shifts. -/
def crcShifts : Nat → Half → Half
  | 0, c => c
  | k + 1, c => crcShifts k (crcShift c)

/-- `crc16_step(c, b)` (40_checksum.md R59). -/
def crc16Step (c : Half) (b : Byte) : Half := crcShifts 8 (c ^^^ b.setWidth 16)

/-- The loop of `crc16`, from an accumulator value `c`. -/
def crc16From (c : Half) (bs : List Byte) : Half := bs.foldl crc16Step c

/-- `crc16(s)` (40_checksum.md R59). -/
def crc16 (bs : List Byte) : Half := crc16From 0xFFFF#16 bs

/-- One byte of the LRC sum, modulo 256 (40_checksum.md R67). -/
def sumStep (x b : Byte) : Byte := x + b

/-- The byte sum from an accumulator value `x`. -/
def sum8From (x : Byte) (bs : List Byte) : Byte := bs.foldl sumStep x

/-- `sum8(s)` (40_checksum.md R60). -/
def sum8 (bs : List Byte) : Byte := sum8From 0x00#8 bs

/-- The LRC value of a sum, `(256 - s) mod 256` (40_checksum.md R60; 10_state.md R20). -/
def lrcOfSum (x : Byte) : Byte := BitVec.ofNat 8 (256 - x.toNat)

/-- `lrc8(s)` (40_checksum.md R60). -/
def lrc8 (bs : List Byte) : Byte := lrcOfSum (sum8 bs)

/-- `c[7:0]`, crc_lo (20_memory.md R33). -/
def lowByte (c : Half) : Byte := c.extractLsb' 0 8

/-- `c[15:8]`, crc_hi (20_memory.md R33). -/
def highByte (c : Half) : Byte := c.extractLsb' 8 8

end Sys2Proof.Machine
end

