-- ==== Sys2Proof/Config.lean ====
section
/-! DEFINITION. What an instance of MBFC fixes. The spec's open parameters are four (92_eei_decisions.md,
"Open parameters"); only `MAX_PACKET_SIZE` is one that a rule of the block reads. No value that a command
computes is left open by the spec, so there is no free value here. -/

namespace Sys2Proof

/-- `MAX_PACKET_SIZE` with its range, 5 to 65535 inclusive (00_scope.md R5; 92_eei_decisions.md D5).
State carries the instance's value as plain data, so every claim holds for every value in the range (log entry 3). -/
structure Config where
  maxPacketSize : Nat
  atLeastFive : 5 ≤ maxPacketSize
  fitsLength : maxPacketSize ≤ 65535
deriving DecidableEq, Repr

/-- The default instance of 00_scope.md R5: 256 bytes. -/
def Config.default : Config := ⟨256, by decide, by decide⟩

end Sys2Proof
end

