-- ==== Sys2Proof/Machine/State.lean ====
section
/-! DEFINITION. The state of MBFC as plain data (10_state.md), the ways a step can stop, and the state after
reset (70_reset_and_hazards.md R98, R99). -/

namespace Sys2Proof.Machine

/-- MODE.FRAMING (10_state.md R18): 0 is RTU, 1 is ASCII. -/
inductive Framing where
  | rtu
  | ascii
deriving DecidableEq, Repr

/-- The names of the register map (10_state.md R12). -/
inductive RegName where
  | cmd
  | status
  | mode
  | crc
  | lrc
  | addr
  | fc
  | plen
  | flen
  | excode
  | cap
deriving DecidableEq, Repr

/-- The codec and decoder errors a command can end in (60_exceptions.md R81). -/
inductive CmdError where
  | checksumMismatch
  | frameTooShort
  | payloadTooLarge
  | illegalCommand
deriving DecidableEq, Repr

/-- What arrives at the block from outside: the host's accesses (20_memory.md R31, the `MemRead` and `MemWrite` of
00_scope.md section 5) and the reset input (70_reset_and_hazards.md R97, R100). -/
inductive HostEvent where
  /-- `MemRead(a, n)`. -/
  | read (a : BlockAddr) (n : Nat)
  /-- `MemWrite(a, n, v)`. -/
  | write (a : BlockAddr) (n : Nat) (v : Word)
  /-- The reset input is asserted. -/
  | assertReset
  /-- The reset input is released. -/
  | releaseReset
  /-- `MemWrite(0x00000, 4, v)` during whose command the reset input is asserted (70_reset_and_hazards.md R100). -/
  | abandonedWrite (v : Word)
deriving DecidableEq, Repr

/-- The port's answer to the latest access (model's own field, log entry 2). -/
inductive Reply where
  /-- No access since reset. -/
  | none
  /-- The data of an admitted read (20_memory.md R35, R36). -/
  | data (v : Word)
  /-- An admitted write, complete (70_reset_and_hazards.md R103). -/
  | done
  /-- A CMD write that reset cut short: no defined completion (70_reset_and_hazards.md R100). -/
  | noCompletion
deriving DecidableEq, Repr

/-- The frame buffer: (index, byte) pairs, indexes strictly rising.  A byte is listed exactly when its written mark is
set (10_state.md R27, R28); an unlisted index has no value (log entry 4). -/
abbrev Memory := List Host.Cell

/-- The canonical form of `Memory`: indexes strictly rising.  An unlisted index has no value, so there is no entry to
leave out for being the default. -/
abbrev Memory.wf (m : Memory) : Prop := m.Pairwise (fun x y => x.1 < y.1)

/-- The whole state: the block's (10_state.md's listing, rule by rule), its configuration, the level of the reset
input, and the model's own view of the port (what the host will do next, and the latest answer). -/
structure State where
  /-- CRC-16 accumulator (R19). -/
  crc : Half
  /-- LRC-8 byte-sum accumulator SUM (R20). -/
  sum : Byte
  /-- MODE.FRAMING (R18). -/
  mode : Framing
  /-- ADDR (R21). -/
  addr : Byte
  /-- FC (R22). -/
  fc : Byte
  /-- PLEN (R23). -/
  plen : Half
  /-- FLEN (R24). -/
  flen : Half
  /-- EXCODE (R25). -/
  excode : Byte
  /-- STATUS.ERR (R14). -/
  err : Bool
  /-- STATUS.ERRACC (R15). -/
  errAcc : Bool
  /-- STATUS.EXCF (R16). -/
  excf : Bool
  /-- STATUS.ERRCODE (R17). -/
  errCode : BitVec 4
  /-- FBUF with its written marks (R27, R28). -/
  fbuf : Memory
  /-- The instance's parameter, shown by CAP (R26); constant. -/
  cfg : Config
  /-- The reset input is asserted (70_reset_and_hazards.md R97). -/
  inReset : Bool
  /-- What the host does next, oldest first (model's own, log entry 1). -/
  pending : List HostEvent
  /-- The port's latest answer (model's own, log entry 2). -/
  reply : Reply
deriving DecidableEq, Repr

/-- Why a run stops. -/
inductive Fault where
  /-- Raised by the port for a refused access to `a` (20_memory.md R37).  Safe: the spec asks a model to stop here,
  and the chip changes no state (log entry 5). -/
  | busError (a : BlockAddr)
  /-- Raised by a read or a command that uses the FBUF byte `i`, not written since reset (10_state.md R28).  Safe: the
  chip goes on with an unspecified value, the spec asks a model to stop (log entry 4). -/
  | unwrittenBuffer (i : Nat)
  /-- Raised by an access while reset is asserted, which has no defined result: the stuck state of 93 U2
  (70_reset_and_hazards.md R97).  Safe (log entry 6). -/
  | accessInReset
deriving DecidableEq, Repr

/-- Why an instruction has no meaning. -/
inductive Refusal where
  /-- Raised by no arm of this model: every command has its meaning.  Safe. -/
  | notModelled (mnemonic : String)
deriving DecidableEq, Repr

/-- The machine right after reset (70_reset_and_hazards.md R98, R99), for the default instance (00_scope.md R5), with
nothing yet from the host. -/
def State.reset : State where
  crc := 0xFFFF#16
  sum := 0x00#8
  mode := .rtu
  addr := 0x00#8
  fc := 0x00#8
  plen := 0x0000#16
  flen := 0x0000#16
  excode := 0x00#8
  err := false
  errAcc := false
  excf := false
  errCode := 0#4
  fbuf := []
  cfg := Config.default
  inReset := false
  pending := []
  reply := .none

end Sys2Proof.Machine
end

