-- ==== Sys2Proof/Machine/Flags.lean ====
section
/-! DEFINITION. STATUS: its word, the error codes, and what the end of a command writes in it
(10_state.md R14 to R17; 60_exceptions.md R81, R82). -/

namespace Sys2Proof.Machine

/-- The code of a command error (60_exceptions.md R81). -/
def errorCode : CmdError → BitVec 4
  | .checksumMismatch => 1#4
  | .frameTooShort => 2#4
  | .payloadTooLarge => 3#4
  | .illegalCommand => 4#4

/-- STATUS as the host reads it: ERRCODE [7:4], bit 3 zero, EXCF [2], ERRACC [1], ERR [0], the rest zero
(10_state.md R12, R17). -/
def statusWord (s : State) : Word :=
  0#24 ++ s.errCode ++ 0#1 ++ BitVec.ofBool s.excf ++ BitVec.ofBool s.errAcc ++ BitVec.ofBool s.err

/-- STATUS after a command that ends in `complete` (60_exceptions.md R82). -/
def setSuccess (s : State) : State := { s with err := false, errCode := 0#4 }

/-- STATUS after a command that ends in `raise CmdError(e)` (60_exceptions.md R82). -/
def setFailure (e : CmdError) (s : State) : State :=
  { s with err := true, errCode := errorCode e, errAcc := true }

end Sys2Proof.Machine
end

