-- ==== Sys2Proof/Machine/Ops.lean ====
section
/-! DEFINITION. The named operations: the frame buffer's bytes, the use of buffer bytes by a command, the two ends of
a command (`complete` and `raise CmdError`, 60_exceptions.md R82: the block takes no trap, R87), reset, and the
registers of the register map (10_state.md R12). -/

namespace Sys2Proof.Machine

/-- The outcome of a step, a command or an access. -/
abbrev Out := Host.Outcome State Fault Refusal

/-! ## The frame buffer (10_state.md R27, R28) -/

/-- FBUF[i], or nothing when it is not written since reset. -/
def Memory.read : Memory → Nat → Option Byte
  | [], _ => none
  | (k, b) :: rest, i => if k = i then some b else Memory.read rest i

/-- `FBUF[i] <- b`, the written mark set. -/
def Memory.write : Memory → Nat → Byte → Memory
  | [], i, b => [(i, b)]
  | (k, c) :: rest, i, b =>
    if i < k then (i, b) :: (k, c) :: rest
    else if i = k then (i, b) :: rest
    else (k, c) :: Memory.write rest i b

/-- `FBUF[i..i+n)`, or the lowest index of the range that is not written since reset. -/
def Memory.readRange (m : Memory) : Nat → Nat → Except Nat (List Byte)
  | _, 0 => .ok []
  | i, n + 1 =>
    match m.read i with
    | none => .error i
    | some b =>
      match m.readRange (i + 1) n with
      | .error j => .error j
      | .ok bs => .ok (b :: bs)

/-- The bytes stored from index `i` on, in order. -/
def Memory.writeRange (m : Memory) : Nat → List Byte → Memory
  | _, [] => m
  | i, b :: bs => (m.write i b).writeRange (i + 1) bs

/-- Go on with FBUF[i]; a byte not written since reset is the fault `UnwrittenBuffer(i)` (10_state.md R28). -/
def useByte (m : Memory) (i : Nat) (next : Byte → Out) : Out :=
  match m.read i with
  | some b => next b
  | none => .fault (.unwrittenBuffer i)

/-- Go on with FBUF[i..i+n); the fault names the lowest unwritten index (10_state.md R28; log entry 4). -/
def useBytes (m : Memory) (i n : Nat) (next : List Byte → Out) : Out :=
  match m.readRange i n with
  | .ok bs => next bs
  | .error j => .fault (.unwrittenBuffer j)

/-! ## The ends of a command (60_exceptions.md R82) -/

/-- `complete`. -/
def complete (s : State) : Out := .next (setSuccess s)

/-- `raise CmdError(e)`: STATUS is all that changes. -/
def raise (e : CmdError) (s : State) : Out := .next (setFailure e s)

/-! ## Reset (70_reset_and_hazards.md R97 to R100) -/

/-- Every state element of the block at its reset value (R98), every written mark cleared (R99).  CAP is a constant of
the instance (10_state.md R26); what the host does next is not the block's. -/
def resetBlock (s : State) : State :=
  { State.reset with cfg := s.cfg, inReset := s.inReset, pending := s.pending }

/-- The reset input is asserted: the block is held in reset (R97). -/
def holdInReset (s : State) : State := { resetBlock s with inReset := true }

/-- The reset input is released: the block is in the reset state (R97).  Releasing an input that is not asserted is no
event for the block (log entry 6). -/
def leaveReset (s : State) : State :=
  if s.inReset then { resetBlock s with inReset := false } else s

/-! ## The register map (10_state.md R12) -/

/-- CAP, the frame buffer's size in bytes (10_state.md R26, R27). -/
def capacity (s : State) : Nat := s.cfg.maxPacketSize

/-- The byte offset of a register. -/
def regOffset : RegName → Nat
  | .cmd => 0x00
  | .status => 0x04
  | .mode => 0x08
  | .crc => 0x0C
  | .lrc => 0x10
  | .addr => 0x14
  | .fc => 0x18
  | .plen => 0x1C
  | .flen => 0x20
  | .excode => 0x24
  | .cap => 0x28

/-- The register at a byte offset, if the map has one there. -/
def regAt? (off : Nat) : Option RegName :=
  if off = 0x00 then some .cmd
  else if off = 0x04 then some .status
  else if off = 0x08 then some .mode
  else if off = 0x0C then some .crc
  else if off = 0x10 then some .lrc
  else if off = 0x14 then some .addr
  else if off = 0x18 then some .fc
  else if off = 0x1C then some .plen
  else if off = 0x20 then some .flen
  else if off = 0x24 then some .excode
  else if off = 0x28 then some .cap
  else none

/-- A host read of the register is allowed (access R or RW). -/
def regReadable : RegName → Bool
  | .cmd => false
  | .status => true
  | .mode => true
  | .crc => true
  | .lrc => true
  | .addr => true
  | .fc => true
  | .plen => true
  | .flen => true
  | .excode => true
  | .cap => true

/-- A host write of the register is allowed (access W or RW). -/
def regWritable : RegName → Bool
  | .cmd => true
  | .status => false
  | .mode => true
  | .crc => false
  | .lrc => false
  | .addr => true
  | .fc => true
  | .plen => true
  | .flen => true
  | .excode => false
  | .cap => false

/-- The defined bits of a register, as a mask (10_state.md R12). -/
def regDefinedBits : RegName → Word
  | .cmd => 0x0000FFFF#32
  | .status => 0x000000F7#32
  | .mode => 0x00000001#32
  | .crc => 0x0000FFFF#32
  | .lrc => 0x0000FFFF#32
  | .addr => 0x000000FF#32
  | .fc => 0x000000FF#32
  | .plen => 0x0000FFFF#32
  | .flen => 0x0000FFFF#32
  | .excode => 0x000000FF#32
  | .cap => 0x0000FFFF#32

/-- MODE.FRAMING as its bit (10_state.md R18). -/
def framingBit : Framing → BitVec 1
  | .rtu => 0#1
  | .ascii => 1#1

/-- The framing a FRAMING bit selects (10_state.md R18). -/
def framingOfBit (b : Bool) : Framing := if b then .ascii else .rtu

/-- The LRC register's value: SUM at [15:8], its LRC value at [7:0] (10_state.md R20). -/
def lrcWord (x : Byte) : Word := 0#16 ++ x ++ lrcOfSum x

/-- The 32-bit value a host read of the register returns (10_state.md R8, R14 to R26).  CMD holds no state (R13): its
line is never reached, since a read of it is refused. -/
def readReg (r : RegName) (s : State) : Word :=
  match r with
  | .cmd => 0#32
  | .status => statusWord s
  | .mode => (framingBit s.mode).setWidth 32
  | .crc => s.crc.setWidth 32
  | .lrc => lrcWord s.sum
  | .addr => s.addr.setWidth 32
  | .fc => s.fc.setWidth 32
  | .plen => s.plen.setWidth 32
  | .flen => s.flen.setWidth 32
  | .excode => s.excode.setWidth 32
  | .cap => BitVec.ofNat 32 (capacity s)

/-- A host write of a read-write register: its defined field takes the same bits of `v` (10_state.md R9).  CMD holds
no state (R13), and the read-only registers' lines are never reached, since a write of them is refused. -/
def writeReg (r : RegName) (v : Word) (s : State) : State :=
  match r with
  | .cmd => s
  | .status => s
  | .mode => { s with mode := framingOfBit (v.getLsbD 0) }
  | .crc => s
  | .lrc => s
  | .addr => { s with addr := v.extractLsb' 0 8 }
  | .fc => { s with fc := v.extractLsb' 0 8 }
  | .plen => { s with plen := v.extractLsb' 0 16 }
  | .flen => { s with flen := v.extractLsb' 0 16 }
  | .excode => s
  | .cap => s

end Sys2Proof.Machine
end

