-- ==== Sys2Proof/Machine/Bus.lean ====
section
/-! DEFINITION. The host port (20_memory.md): which accesses are admitted, what an admitted access does, and the
taking of the host's next event.  A CMD write is handed on as a command word; Step.lean runs it. -/

namespace Sys2Proof.Machine

/-! ## Byte order (20_memory.md R34) -/

/-- `zext_32({FBUF[i+n-1], ..., FBUF[i]})`: the first byte in the least significant bits. -/
def packBytes : List Byte → Word
  | [] => 0#32
  | b :: bs => (packBytes bs <<< 8) ||| b.setWidth 32

/-- The `n` bytes of `v` from the least significant on: byte `k` is `v[8k+7:8k]`. -/
def splitBytes : Nat → Word → List Byte
  | 0, _ => []
  | n + 1, v => v.extractLsb' 0 8 :: splitBytes n (v >>> 8)

/-! ## The address map (20_memory.md R32) -/

/-- The first address of the frame buffer window. -/
def windowBase : Nat := 0x10000

/-- The offset `a` of a host address: its low 17 bits, whatever the multiple of 0x20000 that the platform chose as
`BASE_ADDR` (20_memory.md R32; log entry 7). -/
def blockOffset (hostAddr : Nat) : BlockAddr := BitVec.ofNat 17 hostAddr

/-- The register an access addresses, when it has a register's width and alignment (20_memory.md R35). -/
def regAccess? (a n : Nat) : Option RegName :=
  if n = 4 ∧ a % 4 = 0 then regAt? a else none

/-- The first FBUF index of an admitted window access of `n` bytes at `a` (20_memory.md R36). -/
def windowAccess? (s : State) (a n : Nat) : Option Nat :=
  if windowBase ≤ a ∧ (n = 1 ∨ n = 2 ∨ n = 4) ∧ a % n = 0 ∧ (a - windowBase) + n ≤ capacity s then
    some (a - windowBase)
  else none

/-! ## Accesses -/

/-- What the port has done with the host's next event. -/
inductive Accepted where
  /-- It is settled: this is the step's outcome. -/
  | settled (o : Host.Outcome State Fault Refusal)
  /-- It is an admitted CMD write of the word `w`, to run in the state `t` (10_state.md R13). -/
  | command (w : Word) (t : State)

/-- The refusal of an access (20_memory.md R37). -/
def refuse (a : BlockAddr) : Out := .fault (.busError a)

/-- `MemRead(a, n)` (20_memory.md R35, R36). -/
def busRead (a : BlockAddr) (n : Nat) (s : State) : Out :=
  match regAccess? a.toNat n with
  | some r => if regReadable r then .next { s with reply := .data (readReg r s) } else refuse a
  | none =>
    match windowAccess? s a.toNat n with
    | some i => useBytes s.fbuf i n fun bs => .next { s with reply := .data (packBytes bs) }
    | none => refuse a

/-- `MemWrite(a, n, v)` (20_memory.md R35, R36). -/
def busWrite (a : BlockAddr) (n : Nat) (v : Word) (s : State) : Accepted :=
  match regAccess? a.toNat n with
  | some .cmd => .command v { s with reply := .done }
  | some r =>
    if regWritable r then .settled (.next { writeReg r v s with reply := .done }) else .settled (refuse a)
  | none =>
    match windowAccess? s a.toNat n with
    | some i => .settled (.next { s with fbuf := s.fbuf.writeRange i (splitBytes n v), reply := .done })
    | none => .settled (refuse a)

/-- One event, already taken from the list of what the host does next.  While reset is asserted an access has no
defined result, so the model has no step for it (70_reset_and_hazards.md R97). -/
def serve (e : HostEvent) (s : State) : Accepted :=
  match e with
  | .read a n => if s.inReset then .settled (.fault .accessInReset) else .settled (busRead a n s)
  | .write a n v => if s.inReset then .settled (.fault .accessInReset) else busWrite a n v s
  | .assertReset => .settled (.next (holdInReset s))
  | .releaseReset => .settled (.next (leaveReset s))
  | .abandonedWrite _ =>
    if s.inReset then .settled (.fault .accessInReset)
    else .settled (.next { holdInReset s with reply := .noCompletion })

/-- The port takes the host's next event, in arrival order (20_memory.md R40).  With none, the block holds its state
(60_exceptions.md R94; log entry 1). -/
def accept (s : State) : Accepted :=
  match s.pending with
  | [] => .settled (.next s)
  | e :: rest => serve e { s with pending := rest }

/-- The state in which the command word of `nbits` table bits `w` is what the host writes to CMD next, the reset input
released (log entry 1). -/
def placeCommand (nbits w : Nat) (s : State) : State :=
  { s with inReset := false, pending := .write 0x00000#17 4 (tableWord nbits w) :: s.pending }

end Sys2Proof.Machine
end

