-- ==== Sys2Proof/Machine/Operands.lean ====
section
/-! DEFINITION. The operand forms of the commands beyond the DATA byte (30_encoding.md R48): the frame lengths of the
mode and the length registers, the buffer range `FBUF[0..FLEN)`, and the helpers of 41_frame_codec.md that read and
write the check bytes. -/

namespace Sys2Proof.Machine

/-- `W(MODE)`, the checksum width in bytes (10_state.md R18). -/
def checkWidth : Framing → Nat
  | .rtu => 2
  | .ascii => 1

/-- `n = 2 + PLEN + W`, computed exactly (41_frame_codec.md, helpers; 00_scope.md R7). -/
def frameLength (s : State) : Nat := 2 + s.plen.toNat + checkWidth s.mode

/-- The two forms of `*_BUF`: the bytes `FBUF[0..FLEN)`, PayloadTooLarge when FLEN exceeds CAP
(40_checksum.md R65, R68). -/
def useBuffer (s : State) (next : List Byte → Out) : Out :=
  if s.flen.toNat > capacity s then raise .payloadTooLarge s
  else useBytes s.fbuf 0 s.flen.toNat next

/-- The check bytes of a byte sequence in wire order: CRC low byte first in RTU (20_memory.md R33), the LRC byte in ASCII
(41_frame_codec.md, helpers). -/
def checkBytes : Framing → List Byte → List Byte
  | .rtu, bs => [lowByte (crc16 bs), highByte (crc16 bs)]
  | .ascii, bs => [lrc8 bs]

/-- The accumulator of the mode takes the checksum of `bs`; the other one is unchanged (41_frame_codec.md, helpers and
R72). -/
def accumulate (bs : List Byte) (s : State) : State :=
  match s.mode with
  | .rtu => { s with crc := crc16 bs }
  | .ascii => { s with sum := sum8 bs }

/-- `append_checksum(k)` (41_frame_codec.md, helpers): the checksum over FBUF[0..k), stored at FBUF[k..k+W) and in the
accumulator of the mode. -/
def appendChecksum (k : Nat) (s : State) (next : State → Out) : Out :=
  useBytes s.fbuf 0 k fun bs =>
    next { accumulate bs s with fbuf := s.fbuf.writeRange k (checkBytes s.mode bs) }

/-- `check_ok(n)` (41_frame_codec.md, helpers): whether the trailing check bytes FBUF[n-W..n) are those of
FBUF[0..n-W). -/
def checkOk (n : Nat) (s : State) (next : Bool → Out) : Out :=
  useBytes s.fbuf 0 (n - checkWidth s.mode) fun bs =>
    useBytes s.fbuf (n - checkWidth s.mode) (checkWidth s.mode) fun received =>
      next (checkBytes s.mode bs == received)

/-- `unpack_exception(n)` (41_frame_codec.md R73). -/
def unpackException (n : Nat) (s : State) (next : State → Out) : Out :=
  useByte s.fbuf 1 fun f =>
    if f.getLsbD 7 = true ∧ n - 2 - checkWidth s.mode ≥ 1 then
      useByte s.fbuf 2 fun e => next { s with excf := true, excode := e }
    else next { s with excf := f.getLsbD 7, excode := 0x00#8 }

/-- The last lines of DECODE: the accumulator of the mode takes the checksum over the frame less its check bytes
(41_frame_codec.md R72). -/
def accumulateFrame (n : Nat) (s : State) (next : State → Out) : Out :=
  useBytes s.fbuf 0 (n - checkWidth s.mode) fun bs => next (accumulate bs s)

end Sys2Proof.Machine
end

