-- ==== Sys2Proof/Machine/ChecksumEngine.lean ====
section
/-! DEFINITION. The checksum engine commands (40_checksum.md R63 to R68). -/

namespace Sys2Proof.Machine

/-- CRC_INIT (40_checksum.md R63). -/
def execCrcInit (s : State) : Out := complete { s with crc := 0xFFFF#16 }

/-- CRC_BYTE (40_checksum.md R64). -/
def execCrcByte (data : Byte) (s : State) : Out := complete { s with crc := crc16Step s.crc data }

/-- CRC_BUF (40_checksum.md R65). -/
def execCrcBuf (s : State) : Out := useBuffer s fun bs => complete { s with crc := crc16 bs }

/-- LRC_INIT (40_checksum.md R66). -/
def execLrcInit (s : State) : Out := complete { s with sum := 0x00#8 }

/-- LRC_BYTE (40_checksum.md R67). -/
def execLrcByte (data : Byte) (s : State) : Out := complete { s with sum := sumStep s.sum data }

/-- LRC_BUF (40_checksum.md R68). -/
def execLrcBuf (s : State) : Out := useBuffer s fun bs => complete { s with sum := sum8 bs }

end Sys2Proof.Machine
end

