-- ==== Sys2Proof/Machine/Control.lean ====
section
/-! DEFINITION. CLR_ERR and the illegal command (42_control.md R79, R80). -/

namespace Sys2Proof.Machine

/-- CLR_ERR (42_control.md R80). -/
def execClrErr (s : State) : Out := complete { s with errAcc := false }

/-- The action for a word that is no command (42_control.md R79; 30_encoding.md R52). -/
def illegalCommand (s : State) : Out := raise .illegalCommand s

end Sys2Proof.Machine
end

