-- ==== Sys2Proof/Machine/FrameCodec.lean ====
section
/-! DEFINITION. The frame codec commands (41_frame_codec.md R69 to R73). -/

namespace Sys2Proof.Machine

/-- The body ENC_QUERY and ENC_RESP have in common (41_frame_codec.md R69, R70). -/
def encodePayload (s : State) : Out :=
  if frameLength s > capacity s then raise .payloadTooLarge s
  else
    appendChecksum (2 + s.plen.toNat) { s with fbuf := (s.fbuf.write 0 s.addr).write 1 s.fc } fun t =>
      complete { t with flen := BitVec.ofNat 16 (frameLength s) }

/-- ENC_QUERY (41_frame_codec.md R69). -/
def execEncQuery (s : State) : Out := encodePayload s

/-- ENC_RESP: exactly what ENC_QUERY computes (41_frame_codec.md R70). -/
def execEncResp (s : State) : Out := encodePayload s

/-- ENC_EXC (41_frame_codec.md R71). -/
def execEncExc (code : Byte) (s : State) : Out :=
  if 3 + checkWidth s.mode > capacity s then raise .payloadTooLarge s
  else
    appendChecksum 3
      { s with fbuf := ((s.fbuf.write 0 s.addr).write 1 (s.fc ||| 0x80#8)).write 2 code } fun t =>
      complete { t with plen := 1#16, flen := BitVec.ofNat 16 (3 + checkWidth s.mode) }

/-- DECODE (41_frame_codec.md R72). -/
def execDecode (s : State) : Out :=
  if s.flen.toNat > capacity s then raise .payloadTooLarge s
  else if s.flen.toNat < 2 + checkWidth s.mode then raise .frameTooShort s
  else
    checkOk s.flen.toNat s fun ok =>
      if ok then
        useByte s.fbuf 0 fun a =>
          useByte s.fbuf 1 fun f =>
            unpackException s.flen.toNat
              { s with addr := a, fc := f, plen := BitVec.ofNat 16 (s.flen.toNat - 2 - checkWidth s.mode) }
              fun t => accumulateFrame s.flen.toNat t complete
      else raise .checksumMismatch s

end Sys2Proof.Machine
end

