-- ==== Sys2Proof/Machine/Dispatch.lean ====
section
/-! DEFINITION. One arm per command (42_control.md R78). -/

namespace Sys2Proof.Machine

def exec (i : Instr) (s : State) : Host.Outcome State Fault Refusal :=
  match i with
  | .crcInit => Sys2Proof.Machine.execCrcInit s
  | .crcByte data => Sys2Proof.Machine.execCrcByte data s
  | .crcBuf => Sys2Proof.Machine.execCrcBuf s
  | .lrcInit => Sys2Proof.Machine.execLrcInit s
  | .lrcByte data => Sys2Proof.Machine.execLrcByte data s
  | .lrcBuf => Sys2Proof.Machine.execLrcBuf s
  | .encQuery => Sys2Proof.Machine.execEncQuery s
  | .encResp => Sys2Proof.Machine.execEncResp s
  | .encExc code => Sys2Proof.Machine.execEncExc code s
  | .decode => Sys2Proof.Machine.execDecode s
  | .clrErr => Sys2Proof.Machine.execClrErr s

end Sys2Proof.Machine
end

