-- ==== Sys2Proof/Machine/Run.lean ====
section
/-! DEFINITION. Running a command word, and a sequence of commands (42_control.md R77, R78). -/

namespace Sys2Proof.Machine

/-- A command word written to CMD (42_control.md R78): the command it decodes to, or the illegal command (R79). -/
def runCommand (w : Word) (s : State) : Host.Outcome State Fault Refusal :=
  match decodeCommand w with
  | .ok i => exec i s
  | .error _ => illegalCommand s

/-- What the port took, to its end: a CMD write is complete when its command is (70_reset_and_hazards.md R103). -/
def runAccepted : Accepted → Host.Outcome State Fault Refusal
  | .settled o => o
  | .command w t => runCommand w t

/-- Commands one after the other, in the order the host writes them (42_control.md R77), up to the first stop. -/
def runCommands : List Instr → State → Host.Outcome State Fault Refusal
  | [], s => .next s
  | i :: is, s =>
    match exec i s with
    | .next t => runCommands is t
    | .fault f => .fault f
    | .refused r => .refused r

end Sys2Proof.Machine
end

