-- ==== Sys2Proof/Machine/Step.lean ====
section
/-! DEFINITION. One step: the block takes the host's next event and completes it (10_state.md R11; 20_memory.md R40;
70_reset_and_hazards.md R103). -/

namespace Sys2Proof.Machine

/-- One step: one host event, a CMD write together with the whole command it issues. -/
def step (s : State) : Host.Outcome State Fault Refusal := runAccepted (accept s)

/-- `s` with the instruction of `nbits` table bits `w` placed where the next step takes it: as the host's next CMD write. -/
def State.withFetchWord (s : State) (nbits w : Nat) : State := placeCommand nbits w s

end Sys2Proof.Machine
end

