-- ==== Sys2Proof/Machine/Asm.lean ====
section
/-! DEFINITION. The assembler syntax and the pseudo-instructions (30_encoding.md R54, R55): a line of a host program and
the bus accesses it assembles to.  Operands are plain numbers here, since a line may be written with one out of range;
such a line does not assemble. -/

namespace Sys2Proof.Machine

/-- A line of a host program (30_encoding.md R54, R55). -/
inductive AsmLine where
  /-- `CRC.INIT` -/
  | crcInit
  /-- `CRC.BYTE #b` -/
  | crcByte (b : Nat)
  /-- `CRC.BUF` -/
  | crcBuf
  /-- `LRC.INIT` -/
  | lrcInit
  /-- `LRC.BYTE #b` -/
  | lrcByte (b : Nat)
  /-- `LRC.BUF` -/
  | lrcBuf
  /-- `ENC.QUERY` -/
  | encQuery
  /-- `ENC.RESP` -/
  | encResp
  /-- `ENC.EXC #code` -/
  | encExc (code : Nat)
  /-- `DECODE` -/
  | decode
  /-- `CLR.ERR` -/
  | clrErr
  /-- `WR <reg>, #v` -/
  | wr (r : RegName) (v : Nat)
  /-- `RD <reg>` -/
  | rd (r : RegName)
  /-- `WRB <i>, #b` -/
  | wrb (i b : Nat)
  /-- `RDB <i>` -/
  | rdb (i : Nat)
  /-- `WRW <i>, #v` -/
  | wrw (i v : Nat)
  /-- `RDW <i>` -/
  | rdw (i : Nat)
  /-- `WRBUF i, [b0, ..., bk]` -/
  | wrbuf (i : Nat) (bs : List Nat)
  /-- `CRC.SEQ [b0, ..., bk]` -/
  | crcSeq (bs : List Nat)
  /-- `LRC.SEQ [b0, ..., bk]` -/
  | lrcSeq (bs : List Nat)
  /-- `SETMODE RTU` / `SETMODE ASCII` -/
  | setMode (m : Framing)
  /-- `FRAME a, f, [p0, ..., pk]` -/
  | frame (a f : Nat) (payload : List Nat)
  /-- `LOADFRAME [b0, ..., bk]` -/
  | loadFrame (bs : List Nat)
deriving DecidableEq, Repr

/-- A CMD write of a command (30_encoding.md R54). -/
def commandWrite (i : Instr) : HostEvent := .write 0x00000#17 4 (encodeCommand i)

/-- The access of a command whose byte operand is `b`, 0 to 255. -/
def asmByteCommand (make : Byte → Instr) (b : Nat) : Option (List HostEvent) :=
  if b ≤ 255 then some [commandWrite (make (BitVec.ofNat 8 b))] else none

/-- `WR <reg>, #v`, with `v` 0 to 2^32-1. -/
def asmWr (r : RegName) (v : Nat) : Option (List HostEvent) :=
  if v < 2 ^ 32 then some [.write (BitVec.ofNat 17 (regOffset r)) 4 (BitVec.ofNat 32 v)] else none

/-- The block address of buffer index `i`, if the 17-bit space has one (log entry 9). -/
def asmWindowAddr (i : Nat) : Option BlockAddr :=
  if windowBase + i < 2 ^ 17 then some (BitVec.ofNat 17 (windowBase + i)) else none

/-- `WRB <i>, #b` for `n = 1` and `b` 0 to 255; `WRW <i>, #v` for `n = 4` and `v` 0 to 2^32-1.  DESIGN CHOICE: R54 gives a
range for WRB's `#b` and for WR's `#v`, none for WRW's, and the model gives it the range of the 4 bytes it writes
(log entry 9). -/
def asmWindowWrite (n i v : Nat) : Option (List HostEvent) :=
  match asmWindowAddr i with
  | some a => if v < 2 ^ (8 * n) then some [.write a n (BitVec.ofNat 32 v)] else none
  | none => none

/-- `RDB <i>` and `RDW <i>`. -/
def asmWindowRead (n i : Nat) : Option (List HostEvent) :=
  match asmWindowAddr i with
  | some a => some [.read a n]
  | none => none

/-- Two pieces one after the other, when both assemble. -/
def asmThen (x y : Option (List HostEvent)) : Option (List HostEvent) :=
  match x, y with
  | some xs, some ys => some (xs ++ ys)
  | _, _ => none

/-- `*.BYTE #b0 ... *.BYTE #bk`. -/
def asmByteCommands (make : Byte → Instr) : List Nat → Option (List HostEvent)
  | [] => some []
  | b :: bs => asmThen (asmByteCommand make b) (asmByteCommands make bs)

/-- `WRB i, #b0 ... WRB i+k, #bk`. -/
def asmWriteBytes : Nat → List Nat → Option (List HostEvent)
  | _, [] => some []
  | i, b :: bs => asmThen (asmWindowWrite 1 i b) (asmWriteBytes (i + 1) bs)

/-- The bus accesses of a line, pseudo-instructions expanded in the order shown (30_encoding.md R54, R55); nothing for a
line with an operand out of range. -/
def assemble : AsmLine → Option (List HostEvent)
  | .crcInit => some [commandWrite .crcInit]
  | .crcByte b => asmByteCommand .crcByte b
  | .crcBuf => some [commandWrite .crcBuf]
  | .lrcInit => some [commandWrite .lrcInit]
  | .lrcByte b => asmByteCommand .lrcByte b
  | .lrcBuf => some [commandWrite .lrcBuf]
  | .encQuery => some [commandWrite .encQuery]
  | .encResp => some [commandWrite .encResp]
  | .encExc code => asmByteCommand .encExc code
  | .decode => some [commandWrite .decode]
  | .clrErr => some [commandWrite .clrErr]
  | .wr r v => asmWr r v
  | .rd r => some [.read (BitVec.ofNat 17 (regOffset r)) 4]
  | .wrb i b => asmWindowWrite 1 i b
  | .rdb i => asmWindowRead 1 i
  | .wrw i v => asmWindowWrite 4 i v
  | .rdw i => asmWindowRead 4 i
  | .wrbuf i bs => asmWriteBytes i bs
  | .crcSeq bs => asmThen (some [commandWrite .crcInit]) (asmByteCommands .crcByte bs)
  | .lrcSeq bs => asmThen (some [commandWrite .lrcInit]) (asmByteCommands .lrcByte bs)
  | .setMode .rtu => asmWr .mode 0
  | .setMode .ascii => asmWr .mode 1
  | .frame a f payload =>
    asmThen (asmWr .addr a)
      (asmThen (asmWr .fc f) (asmThen (asmWr .plen payload.length) (asmWriteBytes 2 payload)))
  | .loadFrame bs => asmThen (asmWriteBytes 0 bs) (asmWr .flen bs.length)

/-- The bus accesses of a program, line after line. -/
def assembleProgram : List AsmLine → Option (List HostEvent)
  | [] => some []
  | l :: ls => asmThen (assemble l) (assembleProgram ls)

end Sys2Proof.Machine
end

