-- ==== Sys2Proof/Machine/HostDuties.lean ====
section
/-! DEFINITION. The host's side of the block: the duties of 60_exceptions.md R96 and the initialisation list of
70_reset_and_hazards.md R102, as predicates over the block's state and the host's accesses.  They bind the host software
and not the block: step does not read them. -/

namespace Sys2Proof.Machine

/-! ## What the host must have written (70_reset_and_hazards.md R102) -/

/-- Every byte of FBUF[i..i+n) has its written mark set. -/
def RangeWritten (s : State) (i n : Nat) : Prop := ∀ k, k < n → (s.fbuf.read (i + k)).isSome = true

/-- R102 step 3: every payload byte is written, before ENC_QUERY or ENC_RESP. -/
def PayloadWritten (s : State) : Prop := RangeWritten s 2 s.plen.toNat

/-- R102 step 4: every byte FBUF[0..FLEN) is written, before DECODE, CRC_BUF or LRC_BUF. -/
def BufferWritten (s : State) : Prop := RangeWritten s 0 s.flen.toNat

/-! ## The exception codes (00_scope.md section 6) -/

/-- The source's ExceptionCode set, 1 to 8.  The block checks no code against it (41_frame_codec.md R71, R73). -/
inductive ExceptionCode where
  | illegalFunction
  | illegalDataAddress
  | illegalDataValue
  | slaveDeviceFailure
  | acknowledge
  | slaveDeviceBusy
  | negativeAcknowledge
  | memoryParityError
deriving DecidableEq, Repr

/-- The value of an exception code. -/
def exceptionValue : ExceptionCode → Byte
  | .illegalFunction => 1#8
  | .illegalDataAddress => 2#8
  | .illegalDataValue => 3#8
  | .slaveDeviceFailure => 4#8
  | .acknowledge => 5#8
  | .slaveDeviceBusy => 6#8
  | .negativeAcknowledge => 7#8
  | .memoryParityError => 8#8

/-! ## The rows of 60_exceptions.md R96 -/

/-- H1: after ENC_QUERY, the host surfaces PayloadTooLarge. -/
def hostSurfacesTooLarge (s : State) : Bool := s.err && s.errCode == errorCode .payloadTooLarge

/-- H2: the frame the host copies to the transport, FBUF[0..FLEN), or the first byte of it that is not written. -/
def hostFrameToSend (s : State) : Except Nat (List Byte) := s.fbuf.readRange 0 s.flen.toNat

/-- H3: after DECODE, the host discards the frame on codes 1 and 2 and keeps waiting. -/
def hostDiscards (s : State) : Bool :=
  s.err && (s.errCode == errorCode .checksumMismatch || s.errCode == errorCode .frameTooShort)

/-- H4: the accepted frame answers the query `(qAddr, qFc)`. -/
def hostCorrelates (qAddr qFc : Byte) (s : State) : Bool :=
  s.addr == qAddr && (s.fc == qFc || s.fc == (qFc ||| 0x80#8))

/-- H4: a broadcast query expects no response. -/
def hostExpectsResponse (qAddr : Byte) : Bool := qAddr != 0x00#8

/-- H5: the code of the `ProtocolException` the query fails with, if the accepted response is flagged (R84). -/
def hostProtocolException (s : State) : Option Byte := if s.excf then some s.excode else none

/-- H6: a slave bound to `bound` keeps the accepted frame. -/
def hostSlaveKeeps (bound : Byte) (s : State) : Bool := s.addr == bound || s.addr == 0x00#8

/-- H7: the command of a slave's exception reply. -/
def hostExceptionReply (e : ExceptionCode) : Instr := .encExc (exceptionValue e)

/-- H7: the reply to a function code the slave does not implement. -/
def hostDefaultReply : Instr := hostExceptionReply .illegalFunction

/-- H9: no access is made while reset is asserted; `asserted` is the level of the reset input before the first event. -/
def hostRespectsReset : Bool → List HostEvent → Bool
  | _, [] => true
  | asserted, .read _ _ :: es => !asserted && hostRespectsReset asserted es
  | asserted, .write _ _ _ :: es => !asserted && hostRespectsReset asserted es
  | _, .assertReset :: es => hostRespectsReset true es
  | _, .releaseReset :: es => hostRespectsReset false es
  | asserted, .abandonedWrite _ :: es => !asserted && hostRespectsReset true es

end Sys2Proof.Machine
end

