-- ==== Sys2Proof/Safety.lean ====
section
/-! DEFINITION. What counts as a safe step, the outcome's parts, and the invariant of the block. -/

namespace Sys2Proof.Machine

/-- The next state of an outcome, if it is one. -/
def nextOf : Out → Option State
  | .next t => some t
  | .fault _ => none
  | .refused _ => none

/-- The fault of an outcome, if it is one. -/
def faultOf : Out → Option Fault
  | .next _ => none
  | .fault f => some f
  | .refused _ => none

/-- A safe step records no fault and refuses nothing (60_exceptions.md R86). -/
def SafeStep (s : State) : Prop := ∃ t, step s = .next t

/-- The block's registers hold their reset values and every written mark is cleared (70_reset_and_hazards.md R98, R99). -/
abbrev AtResetValues (s : State) : Prop :=
  s.crc = 0xFFFF#16 ∧ s.sum = 0x00#8 ∧ s.mode = .rtu ∧ s.addr = 0x00#8 ∧ s.fc = 0x00#8 ∧ s.plen = 0x0000#16 ∧
  s.flen = 0x0000#16 ∧ s.excode = 0x00#8 ∧ s.err = false ∧ s.errAcc = false ∧ s.excf = false ∧ s.errCode = 0#4 ∧
  s.fbuf = []

/-- FBUF is in canonical form and inside its `MAX_PACKET_SIZE` bytes (10_state.md R27). -/
abbrev BufferInv (s : State) : Prop := s.fbuf.wf ∧ ∀ c ∈ s.fbuf, c.1 < capacity s

/-- STATUS is consistent: ERRCODE is no reserved code, ERR says whether there is one, and a failed last command shows in
the sticky bit (10_state.md R14, R15, R17). -/
abbrev StatusInv (s : State) : Prop :=
  s.errCode.toNat ≤ 4 ∧ (s.err = true ↔ s.errCode ≠ 0#4) ∧ (s.err = true → s.errAcc = true)

/-- While the reset input is asserted the block is held at its reset values (70_reset_and_hazards.md R97). -/
abbrev ResetInv (s : State) : Prop := s.inReset = true → AtResetValues s

/-- The invariant every step keeps. -/
abbrev BlockInv (s : State) : Prop := BufferInv s ∧ StatusInv s ∧ ResetInv s

end Sys2Proof.Machine
end

