-- ==== Sys2Proof/Certificates/Slice0/Obligations.lean ====
section
/-! DEFINITION. The statements for the provers, and the words they are written in. Each docstring names the rule of
spec/ that the statement formalises. -/

namespace Sys2Proof.Claims

open Sys2Proof.Machine

/-- FBUF[i..i+len(bs)) is written and holds `bs`. -/
def BytesAt (s : State) (i : Nat) (bs : List Byte) : Prop :=
  ∀ k, (h : k < bs.length) → s.fbuf.read (i + k) = some bs[k]

/-- `j` is the lowest index of FBUF[i..i+n) that is not written. -/
def FirstUnwritten (s : State) (i n j : Nat) : Prop :=
  i ≤ j ∧ j < i + n ∧ s.fbuf.read j = none ∧ ∀ k, i ≤ k → k < j → (s.fbuf.read k).isSome = true

/-- `o` is the fault of some unwritten byte of FBUF[i..i+n): which one the spec does not say of a command. -/
def StopsOnUnwritten (o : Out) (s : State) (i n : Nat) : Prop :=
  ∃ j, i ≤ j ∧ j < i + n ∧ s.fbuf.read j = none ∧ o = .fault (.unwrittenBuffer j)

/-- `s` with STATUS reporting the error `code`: ERR, ERRCODE and ERRACC, nothing else. -/
def reported (code : BitVec 4) (s : State) : State := { s with err := true, errCode := code, errAcc := true }

/-- The block serves the host's event `e` next, the reset input released; `rest` is what the host does after it. -/
def Takes (s : State) (e : HostEvent) (rest : List HostEvent) : Prop :=
  s.inReset = false ∧ s.pending = e :: rest

/-- The word `w` written to CMD runs the command `i`. -/
def WordRuns (w : Word) (i : Instr) : Prop := ∀ s, runCommand w s = exec i s

/-- Words with this OPC are illegal commands when RSV ≠ 0 and, where the command takes no byte, when DATA ≠ 0: only
STATUS changes, code 4. -/
def IllegalWithOpc (opc : Byte) (takesByte : Bool) : Prop :=
  ∀ (w : Word) (s : State), w.extractLsb' 0 8 = opc →
    (w.extractLsb' 16 16 ≠ 0#16 ∨ (takesByte = false ∧ w.extractLsb' 8 8 ≠ 0#8)) →
    runCommand w s = .next (reported 4#4 s)

/-- The commands that build a frame. -/
def IsEncoder (i : Instr) : Prop := i = .encQuery ∨ i = .encResp ∨ ∃ code, i = .encExc code

/-- An OPC of the reserved ranges of 30_encoding.md R50. -/
def ReservedOpc (opc : Nat) : Prop :=
  opc = 0x00 ∨ (0x07 ≤ opc ∧ opc ≤ 0x0F) ∨ (0x13 ≤ opc ∧ opc ≤ 0x1F) ∨ (0x21 ≤ opc ∧ opc ≤ 0x2F) ∨
    (0x31 ≤ opc ∧ opc ≤ 0xFF)

/-- An event that resets the block, or can: the reset input's events and a command that reset cuts short. -/
def IsResetEvent (e : HostEvent) : Prop := e = .assertReset ∨ e = .releaseReset ∨ ∃ v, e = .abandonedWrite v

/-- What 41_frame_codec.md R69 says of a command that frames the payload FBUF[2..2+PLEN): the frame in place and the
accumulator of the mode, PayloadTooLarge, and the fault of an unwritten payload byte. -/
def EncodesFrame (i : Instr) : Prop :=
  (∀ (s : State) (q : List Byte), q.length = s.plen.toNat → BytesAt s 2 q → s.mode = .rtu →
      2 + s.plen.toNat + 2 ≤ capacity s →
      ∃ t, exec i s = .next t ∧
        BytesAt t 0 ([s.addr, s.fc] ++ q ++
          [(crc16 ([s.addr, s.fc] ++ q)).extractLsb' 0 8, (crc16 ([s.addr, s.fc] ++ q)).extractLsb' 8 8]) ∧
        (∀ j, 2 + s.plen.toNat + 2 ≤ j → t.fbuf.read j = s.fbuf.read j) ∧
        t.flen.toNat = 2 + s.plen.toNat + 2 ∧
        t = { s with
          fbuf := t.fbuf
          flen := t.flen
          crc := crc16 ([s.addr, s.fc] ++ q)
          err := false
          errCode := 0#4 }) ∧
  (∀ (s : State) (q : List Byte), q.length = s.plen.toNat → BytesAt s 2 q → s.mode = .ascii →
      2 + s.plen.toNat + 1 ≤ capacity s →
      ∃ t, exec i s = .next t ∧
        BytesAt t 0 ([s.addr, s.fc] ++ q ++ [lrc8 ([s.addr, s.fc] ++ q)]) ∧
        (∀ j, 2 + s.plen.toNat + 1 ≤ j → t.fbuf.read j = s.fbuf.read j) ∧
        t.flen.toNat = 2 + s.plen.toNat + 1 ∧
        t = { s with
          fbuf := t.fbuf
          flen := t.flen
          sum := sum8 ([s.addr, s.fc] ++ q)
          err := false
          errCode := 0#4 }) ∧
  (∀ s : State, capacity s < 2 + s.plen.toNat + checkWidth s.mode → exec i s = .next (reported 3#4 s)) ∧
  (∀ (s : State) (k : Nat), 2 + s.plen.toNat + checkWidth s.mode ≤ capacity s → 2 ≤ k → k < 2 + s.plen.toNat →
      s.fbuf.read k = none → StopsOnUnwritten (exec i s) s 2 s.plen.toNat)

/-- The register-page reads that 20_memory.md R35 allows: offset and register. -/
def allowedReads : List (Nat × RegName) :=
  [(0x04, .status), (0x08, .mode), (0x0C, .crc), (0x10, .lrc), (0x14, .addr), (0x18, .fc), (0x1C, .plen),
   (0x20, .flen), (0x24, .excode), (0x28, .cap)]

/-- The register-page writes that 20_memory.md R35 allows, CMD apart: offset and register. -/
def allowedWrites : List (Nat × RegName) :=
  [(0x08, .mode), (0x14, .addr), (0x18, .fc), (0x1C, .plen), (0x20, .flen)]

/-- The read-write registers with their defined bits (10_state.md R12): offset and mask. -/
def writableBits : List (Nat × Word) :=
  [(0x08, 0x00000001#32), (0x14, 0x000000FF#32), (0x18, 0x000000FF#32), (0x1C, 0x0000FFFF#32),
   (0x20, 0x0000FFFF#32)]

end Sys2Proof.Claims

open Sys2Proof Sys2Proof.Machine Sys2Proof.Claims

/-! ## Encoding and decoding -/

/-- 30_encoding.md R47, R49: no bit of an encoding is dropped. -/
def Obligations.EncodeThenDecodeGivesTheCommand : Prop :=
  ∀ i : Instr, i.wellFormed = true → decodeCommand (encodeCommand i) = .ok i

/-- 30_encoding.md R46, R53: a word that decodes is the word of the command it decodes to, so every other word is illegal. -/
def Obligations.DecodedWordIsTheCommandsOwnWord : Prop :=
  ∀ (w : Word) (i : Instr), decodeCommand w = .ok i → w = encodeCommand i ∧ i.wellFormed = true

/-- 30_encoding.md R49, the opcode map: a word selects at most one row; the row it selects names the command it decodes to, with
its DATA byte; a word that selects none does not decode. -/
def Obligations.OpcodeMapSelectsAtMostOneRowAndDecodes : Prop :=
  (∀ w : Word, opcodeTable.Pairwise (fun r r' => ¬(r.selects w = true ∧ r'.selects w = true))) ∧
  (∀ w : Word, ∀ r ∈ opcodeTable, r.selects w = true → decodeCommand w = .ok (r.make (w.extractLsb' 8 8))) ∧
  (∀ w : Word, (∀ r ∈ opcodeTable, r.selects w = false) → ∃ e, decodeCommand w = .error e)

/-- Words of 30_encoding.md R49 and 95_test_vectors.md, written out, decode to the command they stand for; illegal ones are
rejected by name. -/
def Obligations.WordsOfTheSpecDecodeAsWritten : Prop :=
  decodeCommand 0x00000001#32 = .ok .crcInit ∧ decodeCommand 0x00001102#32 = .ok (.crcByte 0x11#8) ∧
  decodeCommand 0x00000003#32 = .ok .crcBuf ∧ decodeCommand 0x00000004#32 = .ok .lrcInit ∧
  decodeCommand 0x0000FF05#32 = .ok (.lrcByte 0xFF#8) ∧ decodeCommand 0x00000006#32 = .ok .lrcBuf ∧
  decodeCommand 0x00000010#32 = .ok .encQuery ∧ decodeCommand 0x00000011#32 = .ok .encResp ∧
  decodeCommand 0x00000212#32 = .ok (.encExc 0x02#8) ∧ decodeCommand 0x00000020#32 = .ok .decode ∧
  decodeCommand 0x00000030#32 = .ok .clrErr ∧
  decodeCommand 0x00000000#32 = .error (.reservedOpcode 0x00#8) ∧
  decodeCommand 0x00000007#32 = .error (.reservedOpcode 0x07#8) ∧
  decodeCommand 0x00000101#32 = .error (.dataNotZero 0x01#8 0x01#8) ∧
  decodeCommand 0x80000002#32 = .error (.reservedBits 0x8000#16)

/-- 30_encoding.md R50, R51, R52 and 42_control.md R79: a reserved OPC, RSV ≠ 0, or DATA ≠ 0 on a command without a byte operand
is an illegal command, which changes STATUS only (code 4) and raises no bus error; so is every word that no row of the opcode map
selects; the words of R79's corner cases and example. -/
def Obligations.IllegalWordsChangeOnlyStatus : Prop :=
  (∀ (s : State) (w : Word) (rest : List HostEvent), Takes s (.write 0x00000#17 4 w) rest →
    (ReservedOpc (w.extractLsb' 0 8).toNat ∨ w.extractLsb' 16 16 ≠ 0#16 ∨
      (w.extractLsb' 0 8 ∈ [0x01#8, 0x03#8, 0x04#8, 0x06#8, 0x10#8, 0x11#8, 0x20#8, 0x30#8] ∧
        w.extractLsb' 8 8 ≠ 0#8)) →
    step s = .next { s with pending := rest, reply := .done, err := true, errCode := 4#4, errAcc := true }) ∧
  (∀ (s : State) (w : Word), (∀ r ∈ opcodeTable, r.selects w = false) → runCommand w s = .next (reported 4#4 s)) ∧
  (∀ w ∈ [0x00000000#32, 0x00010001#32, 0x00000101#32, 0x00000007#32], ∀ s : State, readReg .status s = 0x00000000#32 →
    ∃ t, runCommand w s = .next t ∧ readReg .status t = 0x00000043#32) ∧
  WordRuns 0x0000FF02#32 (.crcByte 0xFF#8)

/-- 10_state.md R13 and 42_control.md R78: a step that takes a CMD write of a well-formed command is `exec` of it, in the state
with the event taken and the write answered; nothing else is added around it. -/
def Obligations.StepRunsTheDecodedCommand : Prop :=
  ∀ (s : State) (w : Word) (i : Instr) (rest : List HostEvent), Takes s (.write 0x00000#17 4 w) rest →
    decodeCommand w = .ok i → i.wellFormed = true →
    step s = exec i { s with pending := rest, reply := .done }

/-! ## The checksum functions -/

/-- The values of 95_test_vectors.md section 2.1, computed there from 40_checksum.md R59 and R60 (the CRC parameters are marked
general knowledge in the spec). -/
def Obligations.ChecksumFunctionsMeetTheVectors : Prop :=
  crc16 [] = 0xFFFF#16 ∧ lrc8 [] = 0x00#8 ∧ crc16 [0x00#8] = 0x40BF#16 ∧ crc16 [0xFF#8] = 0x00FF#16 ∧
  crc16 [0x01#8] = 0x807E#16 ∧ lrc8 [0x80#8] = 0x80#8 ∧ crc16 [0xFF#8, 0xFF#8] = 0x0000#16 ∧
  crc16 [0x31#8, 0x32#8, 0x33#8, 0x34#8, 0x35#8, 0x36#8, 0x37#8, 0x38#8, 0x39#8] = 0x4B37#16 ∧
  sum8 [0x31#8, 0x32#8, 0x33#8, 0x34#8, 0x35#8, 0x36#8, 0x37#8, 0x38#8, 0x39#8] = 0xDD#8 ∧
  crc16 [0x11#8, 0x06#8, 0x00#8, 0x01#8, 0x00#8, 0xFF#8] = 0xDA9A#16 ∧
  lrc8 [0x11#8, 0x06#8, 0x00#8, 0x01#8, 0x00#8, 0xFF#8] = 0xE9#8

/-- 40_checksum.md section 1 ("The result is 8 bits, so the sum is taken modulo 256", which the spec marks as derived): the sum is
the exact sum of the bytes modulo 256, the LRC is its two's complement, and adding the LRC to the sum gives 0. -/
def Obligations.LrcIsTheTwosComplementOfTheExactSum : Prop :=
  ∀ bs : List Byte,
    (sum8 bs).toNat = (bs.map BitVec.toNat).sum % 256 ∧
    (lrc8 bs).toNat = (256 - (sum8 bs).toNat) % 256 ∧
    lrc8 bs = ~~~(sum8 bs) + 1#8 ∧
    sum8 (bs ++ [lrc8 bs]) = 0x00#8

/-- 40_checksum.md section 1: the CRC step is XOR and logical right shift only (00_scope.md R7 (1)), so it is linear. -/
def Obligations.CrcStepIsLinear : Prop :=
  ∀ (c c' : Half) (b b' : Byte), crc16Step (c ^^^ c') (b ^^^ b') = crc16Step c b ^^^ crc16Step c' b'

/-- 40_checksum.md R61: after an INIT the accumulator is a function of the bytes given since, whatever the state before; the
commands of the other checksum and every host write that is no command leave it; a BUF result is a function of FBUF[0..FLEN). -/
def Obligations.ChecksumsDependOnlyOnTheirBytes : Prop :=
  (∀ (bs : List Byte) (s s' t t' : State),
    runCommands (.crcInit :: bs.map .crcByte) s = .next t → runCommands (.crcInit :: bs.map .crcByte) s' = .next t' →
    t.crc = t'.crc) ∧
  (∀ (bs : List Byte) (s s' t t' : State),
    runCommands (.lrcInit :: bs.map .lrcByte) s = .next t → runCommands (.lrcInit :: bs.map .lrcByte) s' = .next t' →
    t.sum = t'.sum) ∧
  (∀ (i : Instr) (s t : State), (i = .lrcInit ∨ (∃ b, i = .lrcByte b) ∨ i = .lrcBuf) → exec i s = .next t →
    t.crc = s.crc) ∧
  (∀ (i : Instr) (s t : State), (i = .crcInit ∨ (∃ b, i = .crcByte b) ∨ i = .crcBuf) → exec i s = .next t →
    t.sum = s.sum) ∧
  (∀ (s t : State) (a : BlockAddr) (n : Nat) (v : Word) (rest : List HostEvent), Takes s (.write a n v) rest →
    a ≠ 0x00000#17 → step s = .next t → t.crc = s.crc ∧ t.sum = s.sum) ∧
  (∀ s s' t t' : State, s.flen = s'.flen → (∀ j, j < s.flen.toNat → s.fbuf.read j = s'.fbuf.read j) →
    exec .crcBuf s = .next t → exec .crcBuf s' = .next t' → t.err = false → t'.err = false → t.crc = t'.crc) ∧
  (∀ s s' t t' : State, s.flen = s'.flen → (∀ j, j < s.flen.toNat → s.fbuf.read j = s'.fbuf.read j) →
    exec .lrcBuf s = .next t → exec .lrcBuf s' = .next t' → t.err = false → t'.err = false → t.sum = t'.sum)

/-- 40_checksum.md section 1, "Streaming and buffer forms agree" (marked derived in the spec): both forms run, on every byte
sequence, and leave the same checksum. -/
def Obligations.StreamingAndBufferFormsAgree : Prop :=
  (∀ (bs : List Byte) (s : State),
    ∃ t, runCommands (.crcInit :: bs.map .crcByte) s = .next t ∧ t.crc = crc16 bs ∧ t.sum = s.sum ∧
      t.fbuf = s.fbuf ∧ t.err = false) ∧
  (∀ (bs : List Byte) (s : State),
    ∃ t, runCommands (.lrcInit :: bs.map .lrcByte) s = .next t ∧ t.sum = sum8 bs ∧
      (readReg .lrc t).extractLsb' 0 8 = lrc8 bs ∧ t.crc = s.crc ∧ t.fbuf = s.fbuf ∧ t.err = false) ∧
  (∀ (bs : List Byte) (s : State), s.flen.toNat = bs.length → bs.length ≤ capacity s → BytesAt s 0 bs →
    (∃ t, exec .crcBuf s = .next t ∧ t.crc = crc16 bs) ∧
    (∃ t, exec .lrcBuf s = .next t ∧ t.sum = sum8 bs ∧ (readReg .lrc t).extractLsb' 0 8 = lrc8 bs))

/-! ## The commands -/

/-- 40_checksum.md R63. -/
def Obligations.CrcInitLoadsTheInitialValue : Prop :=
  (∀ s : State, exec .crcInit s = .next { s with crc := 0xFFFF#16, err := false, errCode := 0#4 }) ∧
  (∀ s t : State, exec .crcInit s = .next t → exec .crcInit t = .next t) ∧
  WordRuns 0x00000001#32 .crcInit ∧ IllegalWithOpc 0x01#8 false

/-- 40_checksum.md R64. -/
def Obligations.CrcByteFoldsItsByte : Prop :=
  (∀ (s : State) (b : Byte),
    exec (.crcByte b) s = .next { s with crc := crc16Step s.crc b, err := false, errCode := 0#4 }) ∧
  (∀ b : Byte, WordRuns (0x0000#16 ++ b ++ 0x02#8) (.crcByte b)) ∧ IllegalWithOpc 0x02#8 true ∧
  crc16Step 0xFFFF#16 0x00#8 = 0x40BF#16 ∧ crc16Step 0xFFFF#16 0xFF#8 = 0x00FF#16 ∧
  crc16Step 0x00FF#16 0xFF#8 = 0x0000#16 ∧ crc16Step 0xFFFF#16 0x11#8 = 0x4C7F#16

/-- 40_checksum.md R65. -/
def Obligations.CrcBufComputesOverTheFirstFlenBytes : Prop :=
  (∀ (s : State) (bs : List Byte), s.flen.toNat = bs.length → bs.length ≤ capacity s → BytesAt s 0 bs →
    exec .crcBuf s = .next { s with crc := crc16 bs, err := false, errCode := 0#4 }) ∧
  (∀ s : State, capacity s < s.flen.toNat → exec .crcBuf s = .next (reported 3#4 s)) ∧
  (∀ (s : State) (k : Nat), s.flen.toNat ≤ capacity s → k < s.flen.toNat → s.fbuf.read k = none →
    StopsOnUnwritten (exec .crcBuf s) s 0 s.flen.toNat) ∧
  WordRuns 0x00000003#32 .crcBuf ∧ IllegalWithOpc 0x03#8 false

/-- 40_checksum.md R66. -/
def Obligations.LrcInitClearsTheSum : Prop :=
  (∀ s : State, exec .lrcInit s = .next { s with sum := 0x00#8, err := false, errCode := 0#4 }) ∧
  (∀ s t : State, exec .lrcInit s = .next t → readReg .lrc t = 0x00000000#32) ∧
  WordRuns 0x00000004#32 .lrcInit ∧ IllegalWithOpc 0x04#8 false

/-- 40_checksum.md R67. -/
def Obligations.LrcByteAddsModulo256 : Prop :=
  (∀ (s : State) (b : Byte), ∃ t, exec (.lrcByte b) s = .next t ∧
    t.sum.toNat = (s.sum.toNat + b.toNat) % 256 ∧
    t = { s with sum := t.sum, err := false, errCode := 0#4 } ∧
    (readReg .lrc t).extractLsb' 8 8 = t.sum ∧
    ((readReg .lrc t).extractLsb' 0 8).toNat = (256 - t.sum.toNat) % 256) ∧
  (∀ b : Byte, WordRuns (0x0000#16 ++ b ++ 0x05#8) (.lrcByte b)) ∧ IllegalWithOpc 0x05#8 true

/-- 40_checksum.md R68. -/
def Obligations.LrcBufSumsTheFirstFlenBytes : Prop :=
  (∀ (s : State) (bs : List Byte), s.flen.toNat = bs.length → bs.length ≤ capacity s → BytesAt s 0 bs →
    exec .lrcBuf s = .next { s with sum := sum8 bs, err := false, errCode := 0#4 }) ∧
  (∀ s : State, capacity s < s.flen.toNat → exec .lrcBuf s = .next (reported 3#4 s)) ∧
  (∀ (s : State) (k : Nat), s.flen.toNat ≤ capacity s → k < s.flen.toNat → s.fbuf.read k = none →
    StopsOnUnwritten (exec .lrcBuf s) s 0 s.flen.toNat) ∧
  WordRuns 0x00000006#32 .lrcBuf ∧ IllegalWithOpc 0x06#8 false

/-- 41_frame_codec.md R69. -/
def Obligations.EncQueryBuildsTheFrameInPlace : Prop :=
  EncodesFrame .encQuery ∧ WordRuns 0x00000010#32 .encQuery ∧ IllegalWithOpc 0x10#8 false

/-- 41_frame_codec.md R70: ENC_RESP does all that, and exactly what ENC_QUERY does. -/
def Obligations.EncRespComputesWhatEncQueryComputes : Prop :=
  EncodesFrame .encResp ∧ (∀ s : State, exec .encResp s = exec .encQuery s) ∧
  WordRuns 0x00000011#32 .encResp ∧ IllegalWithOpc 0x11#8 false

/-- 41_frame_codec.md R71: from every state ENC_EXC builds the exception frame, since CAP is at least 5. -/
def Obligations.EncExcBuildsTheExceptionFrame : Prop :=
  (∀ (s : State) (code : Byte), s.mode = .rtu → ∃ t, exec (.encExc code) s = .next t ∧
    BytesAt t 0 [s.addr, s.fc ||| 0x80#8, code, (crc16 [s.addr, s.fc ||| 0x80#8, code]).extractLsb' 0 8,
      (crc16 [s.addr, s.fc ||| 0x80#8, code]).extractLsb' 8 8] ∧
    (∀ j, 5 ≤ j → t.fbuf.read j = s.fbuf.read j) ∧
    t = { s with
      fbuf := t.fbuf
      plen := 1#16
      flen := 5#16
      crc := crc16 [s.addr, s.fc ||| 0x80#8, code]
      err := false
      errCode := 0#4 }) ∧
  (∀ (s : State) (code : Byte), s.mode = .ascii → ∃ t, exec (.encExc code) s = .next t ∧
    BytesAt t 0 [s.addr, s.fc ||| 0x80#8, code, lrc8 [s.addr, s.fc ||| 0x80#8, code]] ∧
    (∀ j, 4 ≤ j → t.fbuf.read j = s.fbuf.read j) ∧
    t = { s with
      fbuf := t.fbuf
      plen := 1#16
      flen := 4#16
      sum := sum8 [s.addr, s.fc ||| 0x80#8, code]
      err := false
      errCode := 0#4 }) ∧
  (∀ code : Byte, WordRuns (0x0000#16 ++ code ++ 0x12#8) (.encExc code)) ∧ IllegalWithOpc 0x12#8 true

/-- 41_frame_codec.md R72: an accepted frame is unpacked; each of the three errors changes only STATUS; an unwritten byte of a
frame of legal length is the model's fault. -/
def Obligations.DecodeValidatesAndUnpacks : Prop :=
  (∀ (s : State) (a f : Byte) (q : List Byte), s.mode = .rtu → s.flen.toNat = 2 + q.length + 2 →
    s.flen.toNat ≤ capacity s →
    BytesAt s 0 ([a, f] ++ q ++ [(crc16 ([a, f] ++ q)).extractLsb' 0 8, (crc16 ([a, f] ++ q)).extractLsb' 8 8]) →
    exec .decode s = .next { s with
      addr := a
      fc := f
      plen := BitVec.ofNat 16 q.length
      excf := f.getLsbD 7
      excode := if f.getLsbD 7 = true then q.headD 0x00#8 else 0x00#8
      crc := crc16 ([a, f] ++ q)
      err := false
      errCode := 0#4 }) ∧
  (∀ (s : State) (a f : Byte) (q : List Byte), s.mode = .ascii → s.flen.toNat = 2 + q.length + 1 →
    s.flen.toNat ≤ capacity s → BytesAt s 0 ([a, f] ++ q ++ [lrc8 ([a, f] ++ q)]) →
    exec .decode s = .next { s with
      addr := a
      fc := f
      plen := BitVec.ofNat 16 q.length
      excf := f.getLsbD 7
      excode := if f.getLsbD 7 = true then q.headD 0x00#8 else 0x00#8
      sum := sum8 ([a, f] ++ q)
      err := false
      errCode := 0#4 }) ∧
  (∀ (s : State) (p : List Byte) (lo hi : Byte), s.mode = .rtu → s.flen.toNat = p.length + 2 → 2 ≤ p.length →
    s.flen.toNat ≤ capacity s → BytesAt s 0 (p ++ [lo, hi]) → crc16 p ≠ hi ++ lo →
    exec .decode s = .next (reported 1#4 s)) ∧
  (∀ (s : State) (p : List Byte) (l : Byte), s.mode = .ascii → s.flen.toNat = p.length + 1 → 2 ≤ p.length →
    s.flen.toNat ≤ capacity s → BytesAt s 0 (p ++ [l]) → lrc8 p ≠ l →
    exec .decode s = .next (reported 1#4 s)) ∧
  (∀ s : State, capacity s < s.flen.toNat → exec .decode s = .next (reported 3#4 s)) ∧
  (∀ s : State, s.flen.toNat < 2 + checkWidth s.mode → exec .decode s = .next (reported 2#4 s)) ∧
  (∀ (s : State) (k : Nat), 2 + checkWidth s.mode ≤ s.flen.toNat → s.flen.toNat ≤ capacity s → k < s.flen.toNat →
    s.fbuf.read k = none → StopsOnUnwritten (exec .decode s) s 0 s.flen.toNat) ∧
  WordRuns 0x00000020#32 .decode ∧ IllegalWithOpc 0x20#8 false

/-- 41_frame_codec.md R73: what an accepted frame leaves in EXCF, EXCODE and PLEN; a flagged frame whose payload is not one byte is
accepted all the same; no other command, and nothing else but reset, writes EXCF or EXCODE. -/
def Obligations.DecodeReportsTheExceptionForm : Prop :=
  (∀ s t : State, exec .decode s = .next t → t.err = false →
    ∃ f, s.fbuf.read 1 = some f ∧ t.excf = f.getLsbD 7 ∧ t.plen.toNat = s.flen.toNat - 2 - checkWidth s.mode ∧
      (f.getLsbD 7 = true → 1 ≤ s.flen.toNat - 2 - checkWidth s.mode → s.fbuf.read 2 = some t.excode) ∧
      (f.getLsbD 7 = false ∨ s.flen.toNat - 2 - checkWidth s.mode = 0 → t.excode = 0x00#8)) ∧
  (∀ (s : State) (a f : Byte) (q : List Byte), s.flen.toNat = 2 + q.length + checkWidth s.mode →
    s.flen.toNat ≤ capacity s → BytesAt s 0 ([a, f] ++ q ++ checkBytes s.mode ([a, f] ++ q)) →
    f.getLsbD 7 = true → q.length ≠ 1 →
    ∃ t, exec .decode s = .next t ∧ t.err = false ∧ t.excf = true ∧ t.excode = q.headD 0x00#8 ∧
      t.plen.toNat = q.length) ∧
  (∀ (w : Word) (s t : State), runCommand w s = .next t → (t.excf ≠ s.excf ∨ t.excode ≠ s.excode) →
    decodeCommand w = .ok .decode ∧ t.err = false) ∧
  (∀ s t : State, step s = .next t → (t.excf ≠ s.excf ∨ t.excode ≠ s.excode) → ∃ e rest, s.pending = e :: rest ∧
    ((∃ w, e = .write 0x00000#17 4 w ∧ decodeCommand w = .ok .decode ∧ t.err = false) ∨ IsResetEvent e))

/-- 42_control.md R80; CLR_ERR is the one command that clears ERRACC, and reset the one other event that does. -/
def Obligations.ClrErrClearsTheErrorStatus : Prop :=
  (∀ s : State, exec .clrErr s = .next { s with err := false, errCode := 0#4, errAcc := false }) ∧
  (∀ s t : State, step s = .next t → s.errAcc = true → t.errAcc = false → ∃ e rest, s.pending = e :: rest ∧
    ((∃ w, e = .write 0x00000#17 4 w ∧ decodeCommand w = .ok .clrErr) ∨ IsResetEvent e)) ∧
  WordRuns 0x00000030#32 .clrErr ∧ IllegalWithOpc 0x30#8 false

/-! ## What commands change, and what they leave -/

/-- 60_exceptions.md R82: a command that completes reports no error and keeps ERRACC (CLR_ERR apart); one that fails reports its
code, sets ERRACC and changes nothing else; EXCF changes only in a DECODE that succeeds. -/
def Obligations.CommandsEndInCompleteOrRaise : Prop :=
  ∀ (w : Word) (s t : State), runCommand w s = .next t →
    (t.err = false → t.errCode = 0#4 ∧ (decodeCommand w ≠ .ok .clrErr → t.errAcc = s.errAcc)) ∧
    (t.err = true → t = reported t.errCode s ∧ 1 ≤ t.errCode.toNat ∧ t.errCode.toNat ≤ 4) ∧
    (t.excf ≠ s.excf → decodeCommand w = .ok .decode ∧ t.err = false)

/-- 60_exceptions.md R83: the illegal command first, before any command body; then, for DECODE, PayloadTooLarge, FrameTooShort,
ChecksumMismatch; the first two never hold together. -/
def Obligations.ErrorPriorityGivesOneCode : Prop :=
  (∀ (w : Word) (e : DecodeError) (s : State), decodeCommand w = .error e → runCommand w s = .next (reported 4#4 s)) ∧
  (∀ s t : State, exec .decode s = .next t → t.err = true →
    t.errCode = if capacity s < s.flen.toNat then 3#4 else if s.flen.toNat < 2 + checkWidth s.mode then 2#4 else 1#4) ∧
  (∀ s : State, ¬(capacity s < s.flen.toNat ∧ s.flen.toNat < 2 + checkWidth s.mode)) ∧
  (∀ s t : State, exec .decode s = .next t → t.errCode = 1#4 →
    s.flen.toNat ≤ capacity s ∧ 2 + checkWidth s.mode ≤ s.flen.toNat)

/-- 10_state.md R18 to R27, the writers of each register (what each rule lists under "write"): for every command word, a register
that changed was written by one of the commands its rule names, and no command writes MODE or CAP. -/
def Obligations.OnlyTheNamedCommandsWriteEachRegister : Prop :=
  ∀ (w : Word) (s t : State), runCommand w s = .next t →
    (t.crc ≠ s.crc → ∃ i, decodeCommand w = .ok i ∧
      (i = .crcInit ∨ (∃ b, i = .crcByte b) ∨ i = .crcBuf ∨
        (s.mode = .rtu ∧ t.err = false ∧ (IsEncoder i ∨ i = .decode)))) ∧
    (t.sum ≠ s.sum → ∃ i, decodeCommand w = .ok i ∧
      (i = .lrcInit ∨ (∃ b, i = .lrcByte b) ∨ i = .lrcBuf ∨
        (s.mode = .ascii ∧ t.err = false ∧ (IsEncoder i ∨ i = .decode)))) ∧
    (t.addr ≠ s.addr ∨ t.fc ≠ s.fc ∨ t.excode ≠ s.excode ∨ t.excf ≠ s.excf →
      decodeCommand w = .ok .decode ∧ t.err = false) ∧
    (t.plen ≠ s.plen → decodeCommand w = .ok .decode ∨ ∃ code, decodeCommand w = .ok (.encExc code)) ∧
    (t.flen ≠ s.flen ∨ t.fbuf ≠ s.fbuf → ∃ i, decodeCommand w = .ok i ∧ IsEncoder i ∧ t.err = false) ∧
    t.mode = s.mode ∧ t.cfg = s.cfg ∧ t.inReset = s.inReset ∧ t.pending = s.pending ∧ t.reply = s.reply

/-- 10_state.md R27, 41_frame_codec.md R69 to R72: the bytes of FBUF that each command stores to; every other byte reads as before,
and a command that stores nothing, or fails, leaves every byte. -/
def Obligations.CommandsStoreOnlyHeaderAndCheckBytes : Prop :=
  (∀ (i : Instr) (s t : State), i = .encQuery ∨ i = .encResp → exec i s = .next t → t.err = false →
    ∀ j, j ≠ 0 → j ≠ 1 → (j < 2 + s.plen.toNat ∨ frameLength s ≤ j) → t.fbuf.read j = s.fbuf.read j) ∧
  (∀ (code : Byte) (s t : State), exec (.encExc code) s = .next t →
    ∀ j, 3 + checkWidth s.mode ≤ j → t.fbuf.read j = s.fbuf.read j) ∧
  (∀ (i : Instr) (s t : State), exec i s = .next t → ¬IsEncoder i ∨ t.err = true →
    ∀ j, t.fbuf.read j = s.fbuf.read j)

/-- 10_state.md R15: ERRACC is set by a command that fails, kept by one that succeeds, cleared by CLR_ERR and reset only, and
shows at bit 1 of STATUS. -/
def Obligations.ErrAccIsStickyUntilClrErrOrReset : Prop :=
  (∀ (w : Word) (s t : State), runCommand w s = .next t → t.err = true → t.errAcc = true) ∧
  (∀ (w : Word) (s t : State), runCommand w s = .next t → t.err = false → decodeCommand w ≠ .ok .clrErr →
    t.errAcc = s.errAcc) ∧
  (∀ s t : State, step s = .next t → s.errAcc = true → t.errAcc = false → ∃ e rest, s.pending = e :: rest ∧
    ((∃ w, e = .write 0x00000#17 4 w ∧ decodeCommand w = .ok .clrErr) ∨ IsResetEvent e)) ∧
  State.reset.errAcc = false ∧ (∀ s : State, (readReg .status s).getLsbD 1 = s.errAcc)

/-- 10_state.md R16: EXCF changes only in a DECODE that succeeds, which gives it bit 7 of frame byte 1, and in reset; it shows at
bit 2 of STATUS. -/
def Obligations.ExcfHoldsTheAcceptedFramesFlag : Prop :=
  (∀ s t : State, step s = .next t → t.excf ≠ s.excf → ∃ e rest, s.pending = e :: rest ∧
    ((∃ w f, e = .write 0x00000#17 4 w ∧ decodeCommand w = .ok .decode ∧ t.err = false ∧ s.fbuf.read 1 = some f ∧
        t.excf = f.getLsbD 7) ∨ IsResetEvent e)) ∧
  (∀ s t : State, exec .decode s = .next t → t.err = false → ∃ f, s.fbuf.read 1 = some f ∧ t.excf = f.getLsbD 7) ∧
  (∀ s t : State, exec .decode s = .next t → t.err = true → t.excf = s.excf) ∧
  State.reset.excf = false ∧ (∀ s : State, (readReg .status s).getLsbD 2 = s.excf)

/-- 10_state.md R17: ERRCODE is 0 after a command that succeeded and one of the four codes after one that failed, codes 5 to 15 are
never written, and STATUS shows it at [7:4] with bit 3 and bits [31:8] zero. -/
def Obligations.ErrCodeIsOneOfTheFourCodes : Prop :=
  (∀ (w : Word) (s t : State), runCommand w s = .next t →
    (t.err = false → t.errCode = 0#4) ∧
    (t.err = true → t.errCode = 1#4 ∨ t.errCode = 2#4 ∨ t.errCode = 3#4 ∨ t.errCode = 4#4)) ∧
  (∀ s t : State, step s = .next t → t.errCode ≠ s.errCode → t.errCode.toNat ≤ 4) ∧
  errorCode .checksumMismatch = 1#4 ∧ errorCode .frameTooShort = 2#4 ∧ errorCode .payloadTooLarge = 3#4 ∧
  errorCode .illegalCommand = 4#4 ∧ State.reset.errCode = 0#4 ∧
  (∀ s : State, (readReg .status s).extractLsb' 4 4 = s.errCode ∧ (readReg .status s).getLsbD 3 = false ∧
    (readReg .status s).extractLsb' 8 24 = 0#24)

/-- 60_exceptions.md R86 with 10_state.md R28: a command stops only on a buffer byte not written since reset, inside the buffer, and
is never refused. -/
def Obligations.CommandsStopOnlyOnUnwrittenBytes : Prop :=
  (∀ (i : Instr) (s : State) (f : Fault), exec i s = .fault f →
    ∃ j, f = .unwrittenBuffer j ∧ j < capacity s ∧ s.fbuf.read j = none) ∧
  (∀ (i : Instr) (s : State) (r : Refusal), exec i s ≠ .refused r) ∧
  (∀ (w : Word) (s : State) (r : Refusal), runCommand w s ≠ .refused r)

/-- 70_reset_and_hazards.md R102, steps 3 and 4: for a host that has written what the command reads, every command completes; the
frame it finds need not be right. -/
def Obligations.PreparedCommandsComplete : Prop :=
  (∀ (i : Instr) (s : State), i = .encQuery ∨ i = .encResp → PayloadWritten s → ∃ t, exec i s = .next t) ∧
  (∀ (i : Instr) (s : State), i = .decode ∨ i = .crcBuf ∨ i = .lrcBuf → BufferWritten s → ∃ t, exec i s = .next t) ∧
  (∀ (i : Instr) (s : State),
    i = .crcInit ∨ (∃ b, i = .crcByte b) ∨ i = .lrcInit ∨ (∃ b, i = .lrcByte b) ∨ (∃ code, i = .encExc code) ∨
      i = .clrErr → ∃ t, exec i s = .next t ∧ t.err = false)

/-! ## The host port -/

/-- 20_memory.md R35: which register-page accesses are admitted, what each does, and that every other one is a bus error. -/
def Obligations.RegisterPageAccessesFollowTheMap : Prop :=
  ∀ (s : State) (a : BlockAddr) (n : Nat) (v : Word) (rest : List HostEvent), a.toNat < 0x2C →
    (Takes s (.read a n) rest →
      (∀ x ∈ allowedReads, n = 4 → a.toNat = x.1 →
        step s = .next { s with pending := rest, reply := .data (readReg x.2 s) }) ∧
      (n ≠ 4 ∨ a.toNat ∉ allowedReads.map Prod.fst → step s = .fault (.busError a))) ∧
    (Takes s (.write a n v) rest →
      (n = 4 → a.toNat = 0x00 → step s = runCommand v { s with pending := rest, reply := .done }) ∧
      (∀ x ∈ allowedWrites, n = 4 → a.toNat = x.1 →
        step s = .next { writeReg x.2 v s with pending := rest, reply := .done }) ∧
      (n ≠ 4 ∨ (a.toNat ≠ 0x00 ∧ a.toNat ∉ allowedWrites.map Prod.fst) → step s = .fault (.busError a)))

/-- 10_state.md R12, the column of reset values: what each register reads as right after reset of the default instance; CMD cannot be
read. -/
def Obligations.RegisterMapReadsItsResetValues : Prop :=
  (∀ x ∈ [(0x04, 0x00000000#32), (0x08, 0x00000000#32), (0x0C, 0x0000FFFF#32), (0x10, 0x00000000#32),
      (0x14, 0x00000000#32), (0x18, 0x00000000#32), (0x1C, 0x00000000#32), (0x20, 0x00000000#32),
      (0x24, 0x00000000#32), (0x28, 0x00000100#32)],
    nextOf (step { State.reset with pending := [.read (BitVec.ofNat 17 x.1) 4] }) =
      some { State.reset with reply := .data x.2 }) ∧
  faultOf (step { State.reset with pending := [.read 0x00000#17 4] }) = some (.busError 0x00000#17)

/-- 10_state.md R9: a host write of a read-write register sets its defined bits from the same bits of the word, whatever the value;
the others are ignored and read back as 0; every other register keeps its value; the command that uses a length checks it. -/
def Obligations.RegisterWriteReadsBackItsDefinedBits : Prop :=
  (∀ s : State, capacity s < 2 + s.plen.toNat + checkWidth s.mode →
    exec .encQuery s = .next (reported 3#4 s) ∧ exec .encResp s = .next (reported 3#4 s)) ∧
  (∀ s : State, capacity s < s.flen.toNat →
    exec .decode s = .next (reported 3#4 s) ∧ exec .crcBuf s = .next (reported 3#4 s) ∧
      exec .lrcBuf s = .next (reported 3#4 s)) ∧
  ∀ x ∈ writableBits, ∀ (s : State) (v : Word) (rest : List HostEvent),
    Takes s (.write (BitVec.ofNat 17 x.1) 4 v) (.read (BitVec.ofNat 17 x.1) 4 :: rest) →
    ∃ t u, step s = .next t ∧ step t = .next u ∧ u.reply = .data (v &&& x.2) ∧ u.pending = rest ∧
      (∀ r : RegName, regOffset r ≠ x.1 → readReg r u = readReg r s) ∧ u.fbuf = s.fbuf ∧ u.cfg = s.cfg

/-- 10_state.md R8, with the bits of R12's table: a read returns every field at its stated bits and 0 at every other bit. -/
def Obligations.RegisterReadsShowFieldsAtTheirBits : Prop :=
  ∀ s : State,
    ((readReg .crc s).extractLsb' 0 16 = s.crc ∧ (readReg .crc s).extractLsb' 16 16 = 0#16) ∧
    ((readReg .lrc s).extractLsb' 8 8 = s.sum ∧
      ((readReg .lrc s).extractLsb' 0 8).toNat = (256 - s.sum.toNat) % 256 ∧
      (readReg .lrc s).extractLsb' 16 16 = 0#16) ∧
    ((readReg .status s).extractLsb' 4 4 = s.errCode ∧ (readReg .status s).getLsbD 2 = s.excf ∧
      (readReg .status s).getLsbD 1 = s.errAcc ∧ (readReg .status s).getLsbD 0 = s.err ∧
      readReg .status s &&& ~~~0x000000F7#32 = 0#32) ∧
    ((readReg .mode s = if s.mode = .ascii then 1#32 else 0#32)) ∧
    ((readReg .addr s).extractLsb' 0 8 = s.addr ∧ (readReg .addr s).extractLsb' 8 24 = 0#24) ∧
    ((readReg .fc s).extractLsb' 0 8 = s.fc ∧ (readReg .fc s).extractLsb' 8 24 = 0#24) ∧
    ((readReg .plen s).extractLsb' 0 16 = s.plen ∧ (readReg .plen s).extractLsb' 16 16 = 0#16) ∧
    ((readReg .flen s).extractLsb' 0 16 = s.flen ∧ (readReg .flen s).extractLsb' 16 16 = 0#16) ∧
    ((readReg .excode s).extractLsb' 0 8 = s.excode ∧ (readReg .excode s).extractLsb' 8 24 = 0#24) ∧
    ((readReg .cap s).toNat = s.cfg.maxPacketSize ∧ (readReg .cap s).extractLsb' 16 16 = 0#16) ∧
    (∀ r : RegName, regOffset r % 4 = 0 ∧ regOffset r < 0x2C)

/-- 20_memory.md R36: which window accesses are admitted, what each does, and that every other one is a bus error. -/
def Obligations.WindowAccessesMoveWholeAlignedRanges : Prop :=
  ∀ (s : State) (a : BlockAddr) (n i : Nat) (v : Word) (rest : List HostEvent), a.toNat = 0x10000 + i →
    ((n = 1 ∨ n = 2 ∨ n = 4) ∧ a.toNat % n = 0 ∧ i + n ≤ capacity s →
      (Takes s (.read a n) rest →
        (∀ bs : List Byte, bs.length = n → BytesAt s i bs →
          ∃ d, step s = .next { s with pending := rest, reply := .data d } ∧ d.toNat < 2 ^ (8 * n) ∧
            ∀ k, (h : k < bs.length) → d.extractLsb' (8 * k) 8 = bs[k]) ∧
        (∀ j, FirstUnwritten s i n j → step s = .fault (.unwrittenBuffer j))) ∧
      (Takes s (.write a n v) rest →
        ∃ t, step s = .next t ∧ (∀ k, k < n → t.fbuf.read (i + k) = some (v.extractLsb' (8 * k) 8)) ∧
          (∀ j, j < i ∨ i + n ≤ j → t.fbuf.read j = s.fbuf.read j) ∧
          t = { s with pending := rest, reply := .done, fbuf := t.fbuf })) ∧
    (¬((n = 1 ∨ n = 2 ∨ n = 4) ∧ a.toNat % n = 0 ∧ i + n ≤ capacity s) →
      (Takes s (.read a n) rest → step s = .fault (.busError a)) ∧
      (Takes s (.write a n v) rest → step s = .fault (.busError a)))

/-- 20_memory.md R32's table, 10_state.md R12: no access of any width is admitted in the reserved ranges or beyond the buffer. -/
def Obligations.ReservedAddressesRaiseBusErrors : Prop :=
  ∀ (s : State) (a : BlockAddr) (n : Nat) (v : Word) (rest : List HostEvent),
    (0x2C ≤ a.toNat ∧ a.toNat ≤ 0xFFFF) ∨ 0x10000 + capacity s ≤ a.toNat →
    (Takes s (.read a n) rest → step s = .fault (.busError a)) ∧
    (Takes s (.write a n v) rest → step s = .fault (.busError a))

/-- 20_memory.md R38: a read changes nothing but the port's answer, and the same read again answers the same; a write that is no
command stores its register's defined bits, or its bytes of FBUF, and has no other effect; a CMD write runs its command each time it
is made, and that is not idempotent. -/
def Obligations.ReadsAreIdempotentAndCommandWritesAreNot : Prop :=
  (∀ (s t : State) (a : BlockAddr) (n : Nat) (rest : List HostEvent), Takes s (.read a n) (.read a n :: rest) →
    step s = .next t →
    t = { s with pending := .read a n :: rest, reply := t.reply } ∧ step t = .next { t with pending := rest }) ∧
  (∀ (s t : State) (a : BlockAddr) (n : Nat) (v : Word) (rest : List HostEvent), Takes s (.write a n v) rest →
    a ≠ 0x00000#17 → step s = .next t →
    (∃ r : RegName, r ∈ [.mode, .addr, .fc, .plen, .flen] ∧ regAccess? a.toNat n = some r ∧
      t = { writeReg r v s with pending := rest, reply := .done }) ∨
    (∃ i, regAccess? a.toNat n = none ∧ windowAccess? s a.toNat n = some i ∧
      t = { s with pending := rest, reply := .done, fbuf := s.fbuf.writeRange i (splitBytes n v) })) ∧
  (∀ (s t : State) (w : Word) (rest : List HostEvent),
    Takes s (.write 0x00000#17 4 w) (.write 0x00000#17 4 w :: rest) → step s = .next t →
    step t = runCommand w { t with pending := rest, reply := .done }) ∧
  (∃ (w : Word) (s t u : State), runCommand w s = .next t ∧ runCommand w t = .next u ∧ t ≠ u)

/-- 20_memory.md R34: after a word write of the window, byte, halfword and word reads of the same bytes see them in little-endian
order, whatever the width of the write. -/
def Obligations.MixedWidthAccessesAreLittleEndian : Prop :=
  ∀ (s : State) (a : BlockAddr) (i : Nat) (v : Word) (rest : List HostEvent), Takes s (.write a 4 v) rest →
    a.toNat = 0x10000 + i → i % 4 = 0 → i + 4 ≤ capacity s →
    ∃ t, step s = .next t ∧
      (∀ k, k < 4 → busRead (a + BitVec.ofNat 17 k) 1 t =
        .next { t with reply := .data ((v.extractLsb' (8 * k) 8).setWidth 32) }) ∧
      busRead a 2 t = .next { t with reply := .data ((v.extractLsb' 0 16).setWidth 32) } ∧
      busRead (a + 2#17) 2 t = .next { t with reply := .data ((v.extractLsb' 16 16).setWidth 32) } ∧
      busRead a 4 t = .next { t with reply := .data v }

/-- 20_memory.md R32: whatever multiple of 0x20000 the platform chose as the base, a host address of the block has its offset as
its low 17 bits. -/
def Obligations.OffsetIsTheLow17BitsOfTheHostAddress : Prop :=
  ∀ k a : Nat, a < 0x20000 → (blockOffset (0x20000 * k + a)).toNat = a

/-! ## Reset -/

/-- 70_reset_and_hazards.md R98: the state after reset, register by register; and the same values after every release of the reset
input, whatever the state before, with CAP unchanged. -/
def Obligations.ResetLeavesTheStatedValues : Prop :=
  (State.reset.crc = 0xFFFF#16 ∧ State.reset.sum = 0x00#8 ∧ State.reset.mode = .rtu ∧ State.reset.addr = 0x00#8 ∧
    State.reset.fc = 0x00#8 ∧ State.reset.plen = 0x0000#16 ∧ State.reset.flen = 0x0000#16 ∧
    State.reset.excode = 0x00#8 ∧ readReg .status State.reset = 0x00000000#32) ∧
  (∀ s : State, ∀ rest : List HostEvent, s.inReset = true → s.pending = .releaseReset :: rest →
    ∃ t, step s = .next t ∧ AtResetValues t ∧ readReg .status t = 0x00000000#32 ∧
      readReg .cap t = BitVec.ofNat 32 s.cfg.maxPacketSize ∧ t.pending = rest ∧ t.inReset = false)

/-- 70_reset_and_hazards.md R99: after reset no buffer byte is written, so a read of one, and each command that consumes one, is the
fault `UnwrittenBuffer(i)`. -/
def Obligations.ResetLeavesEveryBufferByteUnwritten : Prop :=
  ∀ (s t : State) (rest : List HostEvent), Takes s .assertReset (.releaseReset :: rest) →
    Host.Core.run Sys2Proof.core 2 s = .next t →
    (∀ i, t.fbuf.read i = none) ∧
    (∀ i, i < capacity t →
      step { t with pending := [.read (BitVec.ofNat 17 (0x10000 + i)) 1] } = .fault (.unwrittenBuffer i)) ∧
    (∀ n : Half, 0 < n.toNat → n.toNat ≤ capacity t →
      StopsOnUnwritten (exec .crcBuf { t with flen := n }) t 0 n.toNat ∧
      StopsOnUnwritten (exec .lrcBuf { t with flen := n }) t 0 n.toNat ∧
      (4 ≤ n.toNat → StopsOnUnwritten (exec .decode { t with flen := n }) t 0 n.toNat)) ∧
    (∀ n : Half, 0 < n.toNat → 4 + n.toNat ≤ capacity t →
      StopsOnUnwritten (exec .encQuery { t with plen := n }) t 2 n.toNat ∧
      StopsOnUnwritten (exec .encResp { t with plen := n }) t 2 n.toNat)

/-- 70_reset_and_hazards.md R97 (and 60_exceptions.md R96, row H9): asserting holds the block at its reset values, an access while
asserted has no step (the model's stuck state), and on release the block is in the reset state and ready for the next access; no
host access asserts or releases reset. -/
def Obligations.AccessesInResetHaveNoStep : Prop :=
  (∀ s : State, ∀ rest : List HostEvent, s.pending = .assertReset :: rest →
    ∃ t, step s = .next t ∧ AtResetValues t ∧ t.inReset = true ∧ t.pending = rest ∧ t.cfg = s.cfg) ∧
  (∀ (s : State) (a : BlockAddr) (n : Nat) (v : Word) (rest : List HostEvent), s.inReset = true →
    (s.pending = .read a n :: rest ∨ s.pending = .write a n v :: rest) → step s = .fault .accessInReset) ∧
  (∀ s : State, ∀ rest : List HostEvent, s.inReset = true →
    s.pending = .releaseReset :: .read 0x0000C#17 4 :: rest →
    ∃ t u, step s = .next t ∧ AtResetValues t ∧ t.inReset = false ∧ step t = .next u ∧
      u.reply = .data 0x0000FFFF#32) ∧
  (∀ (s t : State) (a : BlockAddr) (n : Nat) (v : Word) (rest : List HostEvent),
    s.pending = .read a n :: rest ∨ s.pending = .write a n v :: rest → step s = .next t → t.inReset = s.inReset)

/-- 70_reset_and_hazards.md R100: a command that reset cuts short is abandoned: every register at its reset value and every buffer
byte unwritten, whatever the word, still so after release, and the stalled write has no completion. That this is one event, answered
`noCompletion`, after which the events that follow are still served, is the model's choice (log entry 6). -/
def Obligations.ResetAbandonsTheRunningCommand : Prop :=
  ∀ (s : State) (w : Word) (rest : List HostEvent), Takes s (.abandonedWrite w) rest →
    ∃ t, step s = .next t ∧ AtResetValues t ∧ t.inReset = true ∧ t.reply = .noCompletion ∧ t.pending = rest ∧
      t.cfg = s.cfg ∧ (∀ j, t.fbuf.read j = none) ∧
      ∀ rest' : List HostEvent, rest = .releaseReset :: rest' →
        ∃ u, step t = .next u ∧ AtResetValues u ∧ u.inReset = false ∧ u.pending = rest' ∧ ∀ j, u.fbuf.read j = none

/-- 10_state.md R26: CAP reads as `MAX_PACKET_SIZE`, which no step changes, reset among them; a write of it is a bus error. -/
def Obligations.CapIsAConstantOfTheInstance : Prop :=
  (∀ (s : State) (rest : List HostEvent), Takes s (.read 0x00028#17 4) rest →
    step s = .next { s with pending := rest, reply := .data (BitVec.ofNat 32 s.cfg.maxPacketSize) }) ∧
  (∀ s t : State, step s = .next t → t.cfg = s.cfg) ∧
  (∀ (s : State) (n : Nat) (v : Word) (rest : List HostEvent), Takes s (.write 0x00028#17 n v) rest →
    step s = .fault (.busError 0x00028#17))

/-! ## Invariants -/

/-- Every step keeps the block's invariant: FBUF canonical and inside CAP (10_state.md R27), STATUS consistent (R14, R15, R17), and
the block at its reset values while it is held in reset (70_reset_and_hazards.md R97). -/
def Obligations.EveryStepKeepsTheBlockInvariant : Prop :=
  ∀ s t : State, BlockInv s → step s = .next t → BlockInv t

/-- The state after reset meets that invariant. -/
def Obligations.ResetMeetsTheBlockInvariant : Prop := BlockInv State.reset

/-- 60_exceptions.md R96, row H9 (70_reset_and_hazards.md R97): a host that makes no access while reset is asserted is never stuck
there, however long the run. -/
def Obligations.HostsThatRespectResetAreNeverStuckInIt : Prop :=
  ∀ (k : Nat) (s : State), hostRespectsReset s.inReset s.pending = true →
    Host.Core.run Sys2Proof.core k s ≠ .fault .accessInReset

/-! ## The properties of the whole codec -/

/-- 41_frame_codec.md section 3, "Round trip" (marked derived in the spec): DECODE of the frame ENC_QUERY or ENC_RESP has just built
succeeds and gives address, function code and payload back, with the mode's accumulator unchanged. -/
def Obligations.DecodeInvertsEncode : Prop :=
  ∀ (i : Instr) (s t : State), i = .encQuery ∨ i = .encResp → exec i s = .next t → t.err = false →
    ∃ u, exec .decode t = .next u ∧ u.err = false ∧ u.addr = s.addr ∧ u.fc = s.fc ∧ u.plen = s.plen ∧
      (∀ j, 2 ≤ j → j < 2 + s.plen.toNat → u.fbuf.read j = s.fbuf.read j) ∧ u.fbuf = t.fbuf ∧
      u.excf = s.fc.getLsbD 7 ∧ u.crc = t.crc ∧ u.sum = t.sum

/-- 41_frame_codec.md section 3, "Checksum tampering" (marked derived, and for RTU general knowledge, in the spec; 90_conflicts.md
C4): one flipped bit anywhere in a frame an ENC_* command built makes DECODE fail with ChecksumMismatch, in both modes. -/
def Obligations.EverySingleBitFlipIsDetected : Prop :=
  ∀ (i : Instr) (s t : State) (j k : Nat) (b : Byte), IsEncoder i → exec i s = .next t → t.err = false →
    j < t.flen.toNat → k < 8 → t.fbuf.read j = some b →
    exec .decode { t with fbuf := t.fbuf.write j (b ^^^ (1#8 <<< k)) } =
      .next (reported 1#4 { t with fbuf := t.fbuf.write j (b ^^^ (1#8 <<< k)) })

/-- 41_frame_codec.md section 3, the residue (marked general knowledge for RTU and derived for ASCII in the spec): the checksum of a
whole frame an ENC_* command built, check bytes included, is 0. -/
def Obligations.WholeFrameResidueIsZero : Prop :=
  ∀ (i : Instr) (s t : State), IsEncoder i → exec i s = .next t → t.err = false →
    (s.mode = .rtu → exec .crcBuf t = .next { t with crc := 0x0000#16, err := false, errCode := 0#4 }) ∧
    (s.mode = .ascii → ∃ u, exec .lrcBuf t = .next u ∧ u = { t with sum := 0x00#8, err := false, errCode := 0#4 } ∧
      readReg .lrc u = 0x00000000#32)

/-- 30_encoding.md R57 with 60_exceptions.md R96, rows H4, H5 and H7: a slave's exception reply, decoded by a master in the same
mode, is accepted, answers the query it replies to, and carries the code. -/
def Obligations.ExceptionReplyReachesTheMaster : Prop :=
  ∀ (s : State) (e : ExceptionCode), ∃ t u, exec (hostExceptionReply e) s = .next t ∧ exec .decode t = .next u ∧
    u.err = false ∧ hostCorrelates s.addr s.fc u = true ∧ hostProtocolException u = some (exceptionValue e) ∧
    u.plen = 1#16 ∧ u.fc = s.fc ||| 0x80#8 ∧ u.fbuf.read 2 = some (exceptionValue e)

/-! ## The assembler -/

/-- 30_encoding.md R54: what each basic line assembles to, and that an operand out of range does not assemble. The limit of a buffer
index and the range of WRW's `#v` are the model's choice (log entry 9). -/
def Obligations.AssemblerLinesGiveTheirAccesses : Prop :=
  (∀ x ∈ [(AsmLine.crcInit, 0x00000001#32), (.crcBuf, 0x00000003#32), (.lrcInit, 0x00000004#32),
      (.lrcBuf, 0x00000006#32), (.encQuery, 0x00000010#32), (.encResp, 0x00000011#32), (.decode, 0x00000020#32),
      (.clrErr, 0x00000030#32)],
    assemble x.1 = some [.write 0x00000#17 4 x.2]) ∧
  (∀ b : Nat, b ≤ 255 →
    assemble (.crcByte b) = some [.write 0x00000#17 4 (0x0000#16 ++ BitVec.ofNat 8 b ++ 0x02#8)] ∧
    assemble (.lrcByte b) = some [.write 0x00000#17 4 (0x0000#16 ++ BitVec.ofNat 8 b ++ 0x05#8)] ∧
    assemble (.encExc b) = some [.write 0x00000#17 4 (0x0000#16 ++ BitVec.ofNat 8 b ++ 0x12#8)]) ∧
  (∀ b : Nat, 255 < b → assemble (.crcByte b) = none ∧ assemble (.lrcByte b) = none ∧ assemble (.encExc b) = none) ∧
  (∀ (r : RegName) (v : Nat), v < 2 ^ 32 →
    assemble (.wr r v) = some [.write (BitVec.ofNat 17 (regOffset r)) 4 (BitVec.ofNat 32 v)]) ∧
  (∀ (r : RegName) (v : Nat), 2 ^ 32 ≤ v → assemble (.wr r v) = none) ∧
  (∀ r : RegName, assemble (.rd r) = some [.read (BitVec.ofNat 17 (regOffset r)) 4]) ∧
  (∀ i : Nat, i < 0x10000 →
    assemble (.rdb i) = some [.read (BitVec.ofNat 17 (0x10000 + i)) 1] ∧
    assemble (.rdw i) = some [.read (BitVec.ofNat 17 (0x10000 + i)) 4]) ∧
  (∀ i : Nat, 0x10000 ≤ i → assemble (.rdb i) = none ∧ assemble (.rdw i) = none) ∧
  (∀ i b : Nat, i < 0x10000 → b ≤ 255 →
    assemble (.wrb i b) = some [.write (BitVec.ofNat 17 (0x10000 + i)) 1 (BitVec.ofNat 32 b)]) ∧
  (∀ i b : Nat, 255 < b ∨ 0x10000 ≤ i → assemble (.wrb i b) = none) ∧
  (∀ i v : Nat, i < 0x10000 → v < 2 ^ 32 →
    assemble (.wrw i v) = some [.write (BitVec.ofNat 17 (0x10000 + i)) 4 (BitVec.ofNat 32 v)]) ∧
  (∀ i v : Nat, 2 ^ 32 ≤ v ∨ 0x10000 ≤ i → assemble (.wrw i v) = none)

/-- 30_encoding.md R55 run on the block, all six pseudo-instructions: the accesses of the line complete and leave exactly the state
given. That CRC.SEQ, LRC.SEQ, WRBUF and LOADFRAME of an empty list expand to their remaining lines is log entry 9's (R55 shows the
empty list for FRAME only). -/
def Obligations.PseudoInstructionsDoWhatTheyAreFor : Prop :=
  (∀ (bs : List Byte) (s : State) (es rest : List HostEvent), assemble (.crcSeq (bs.map BitVec.toNat)) = some es →
    s.inReset = false → s.pending = es ++ rest →
    Host.Core.run Sys2Proof.core es.length s =
      .next { s with crc := crc16 bs, err := false, errCode := 0#4, pending := rest, reply := .done }) ∧
  (∀ (bs : List Byte) (s : State) (es rest : List HostEvent), assemble (.lrcSeq (bs.map BitVec.toNat)) = some es →
    s.inReset = false → s.pending = es ++ rest →
    Host.Core.run Sys2Proof.core es.length s =
      .next { s with sum := sum8 bs, err := false, errCode := 0#4, pending := rest, reply := .done }) ∧
  (∀ (m : Framing) (s : State) (es rest : List HostEvent), assemble (.setMode m) = some es →
    s.inReset = false → s.pending = es ++ rest →
    Host.Core.run Sys2Proof.core es.length s = .next { s with mode := m, pending := rest, reply := .done }) ∧
  (∀ (i : Nat) (bs : List Byte) (s : State) (es rest : List HostEvent),
    assemble (.wrbuf i (bs.map BitVec.toNat)) = some es → i + bs.length ≤ capacity s →
    s.inReset = false → s.pending = es ++ rest →
    ∃ t, Host.Core.run Sys2Proof.core es.length s = .next t ∧ BytesAt t i bs ∧
      (∀ j, j < i ∨ i + bs.length ≤ j → t.fbuf.read j = s.fbuf.read j) ∧
      t = { s with fbuf := t.fbuf, pending := rest, reply := t.reply }) ∧
  (∀ (a f : Byte) (q : List Byte) (s : State) (es rest : List HostEvent),
    assemble (.frame a.toNat f.toNat (q.map BitVec.toNat)) = some es → 2 + q.length ≤ capacity s →
    s.inReset = false → s.pending = es ++ rest →
    ∃ t, Host.Core.run Sys2Proof.core es.length s = .next t ∧ BytesAt t 2 q ∧ t.plen.toNat = q.length ∧
      (∀ j, j < 2 ∨ 2 + q.length ≤ j → t.fbuf.read j = s.fbuf.read j) ∧
      t = { s with addr := a, fc := f, plen := t.plen, fbuf := t.fbuf, pending := rest, reply := .done }) ∧
  (∀ (bs : List Byte) (s : State) (es rest : List HostEvent), assemble (.loadFrame (bs.map BitVec.toNat)) = some es →
    bs.length ≤ capacity s → s.inReset = false → s.pending = es ++ rest →
    ∃ t, Host.Core.run Sys2Proof.core es.length s = .next t ∧ BytesAt t 0 bs ∧ t.flen.toNat = bs.length ∧
      (∀ j, bs.length ≤ j → t.fbuf.read j = s.fbuf.read j) ∧
      t = { s with flen := t.flen, fbuf := t.fbuf, pending := rest, reply := .done })

/-- 30_encoding.md R55, the table: each pseudo-instruction assembles to what the lines of its expansion assemble to, in the order shown,
and does not assemble where one of them does not. -/
def Obligations.PseudoInstructionsExpandAsTheTableShows : Prop :=
  (∀ (i b : Nat) (bs : List Nat), assemble (.wrbuf i (b :: bs)) =
    assembleProgram ((b :: bs).mapIdx fun k x => .wrb (i + k) x)) ∧
  (∀ (b : Nat) (bs : List Nat),
    assemble (.crcSeq (b :: bs)) = assembleProgram (.crcInit :: (b :: bs).map .crcByte) ∧
    assemble (.lrcSeq (b :: bs)) = assembleProgram (.lrcInit :: (b :: bs).map .lrcByte)) ∧
  (assemble (.setMode .rtu) = assemble (.wr .mode 0) ∧ assemble (.setMode .ascii) = assemble (.wr .mode 1)) ∧
  (∀ (a f p : Nat) (ps : List Nat), assemble (.frame a f (p :: ps)) =
    assembleProgram [.wr .addr a, .wr .fc f, .wr .plen (ps.length + 1), .wrbuf 2 (p :: ps)]) ∧
  (∀ a f : Nat, assemble (.frame a f []) = assembleProgram [.wr .addr a, .wr .fc f, .wr .plen 0]) ∧
  (∀ (b : Nat) (bs : List Nat), assemble (.loadFrame (b :: bs)) =
    assembleProgram [.wrbuf 0 (b :: bs), .wr .flen (bs.length + 1)])

/-! ## The model's choice of the index a fault names -/

/-- Log entry 4, not a rule of the spec: where several bytes that a command consumes are unwritten, the fault names the lowest of them
(40_checksum.md and 41_frame_codec.md give a fault for each byte, and no order). -/
def Obligations.CommandFaultsNameTheLowestUnwrittenByte : Prop :=
  (∀ (s : State) (j : Nat), s.flen.toNat ≤ capacity s → FirstUnwritten s 0 s.flen.toNat j →
    exec .crcBuf s = .fault (.unwrittenBuffer j) ∧ exec .lrcBuf s = .fault (.unwrittenBuffer j)) ∧
  (∀ (s : State) (j : Nat), 2 + checkWidth s.mode ≤ s.flen.toNat → s.flen.toNat ≤ capacity s →
    FirstUnwritten s 0 s.flen.toNat j → exec .decode s = .fault (.unwrittenBuffer j)) ∧
  (∀ (s : State) (j : Nat), 2 + s.plen.toNat + checkWidth s.mode ≤ capacity s → FirstUnwritten s 2 s.plen.toNat j →
    exec .encQuery s = .fault (.unwrittenBuffer j) ∧ exec .encResp s = .fault (.unwrittenBuffer j))
end

