-- ==== Sys2Proof/Laws/Checksums.lean ====
section
/-! SUPPORT. The small laws of the checksum functions. -/

namespace Sys2Proof.Machine

@[simp] theorem crc16From_nil (c : Half) : crc16From c [] = c := rfl

@[simp] theorem crc16From_cons (c : Half) (b : Byte) (bs : List Byte) :
    crc16From c (b :: bs) = crc16From (crc16Step c b) bs := rfl

@[simp] theorem crc16From_append (c : Half) (xs ys : List Byte) :
    crc16From c (xs ++ ys) = crc16From (crc16From c xs) ys := by
  simp [crc16From]

theorem crc16_append (xs ys : List Byte) : crc16 (xs ++ ys) = crc16From (crc16 xs) ys := by
  simp [crc16]

@[simp] theorem crc16_nil : crc16 [] = 0xFFFF#16 := rfl

@[simp] theorem sum8From_nil (x : Byte) : sum8From x [] = x := rfl

@[simp] theorem sum8From_cons (x b : Byte) (bs : List Byte) : sum8From x (b :: bs) = sum8From (x + b) bs := rfl

@[simp] theorem sum8From_append (x : Byte) (xs ys : List Byte) :
    sum8From x (xs ++ ys) = sum8From (sum8From x xs) ys := by
  simp [sum8From]

/-- A sum started at `x` is `x` more than one started at 0. -/
theorem sum8From_eq (x : Byte) (bs : List Byte) : sum8From x bs = x + sum8From 0x00#8 bs := by
  induction bs generalizing x with
  | nil => simp
  | cons b bs ih =>
    rw [sum8From_cons, sum8From_cons, ih (x + b), ih (0x00#8 + b)]
    simp [BitVec.add_assoc]

@[simp] theorem sum8_nil : sum8 [] = 0x00#8 := rfl

theorem sum8_append (xs ys : List Byte) : sum8 (xs ++ ys) = sum8 xs + sum8 ys := by
  simp only [sum8, sum8From_append]
  exact sum8From_eq _ _

@[simp] theorem sum8_singleton (b : Byte) : sum8 [b] = b := by
  simp [sum8]

/-- The LRC value of a sum is its two's complement. -/
theorem lrcOfSum_eq_neg (x : Byte) : lrcOfSum x = -x := by
  apply BitVec.eq_of_toNat_eq
  simp [lrcOfSum, BitVec.toNat_neg]

/-- The two bytes of a CRC make it again, the high byte above. -/
theorem highByte_append_lowByte (c : Half) : highByte c ++ lowByte c = c := by
  apply BitVec.eq_of_getLsbD_eq
  intro i hi
  simp only [highByte, lowByte, BitVec.getLsbD_append, BitVec.getLsbD_extractLsb']
  by_cases h : i < 8
  · simp [h]
  · have h8 : i - 8 < 8 := by omega
    simp [h, h8, show 8 + (i - 8) = i by omega]

end Sys2Proof.Machine
end

