-- ==== Sys2Proof/Laws/Decode.lean ====
section
/-! SUPPORT. The fields of a command word and the word are the same data, and what a word that decodes is made of. -/

namespace Sys2Proof

/-- A joined word as a number: the three fields one above the other. -/
theorem joinCommand_toNat (c : CommandWord) :
    (joinCommand c).toNat = (c.rsv.toNat * 256 + c.data.toNat) * 256 + c.opc.toNat := by
  have h1 := Nat.shiftLeft_add_eq_or_of_lt (i := 8) c.data.isLt c.rsv.toNat
  have h2 := Nat.shiftLeft_add_eq_or_of_lt (i := 8) c.opc.isLt (c.rsv.toNat <<< 8 ||| c.data.toNat)
  unfold joinCommand
  rw [BitVec.toNat_append, BitVec.toNat_append, ← h2, ← h1, Nat.shiftLeft_eq, Nat.shiftLeft_eq]

/-- The fields of a joined word are the fields it was joined from. -/
theorem splitCommand_joinCommand (c : CommandWord) : splitCommand (joinCommand c) = c := by
  have h := joinCommand_toNat c
  generalize joinCommand c = w at h
  obtain ⟨opc, data, rsv⟩ := c
  dsimp only at h
  have h1 := opc.isLt
  have h2 := data.isLt
  have h3 := rsv.isLt
  simp only [splitCommand, CommandWord.mk.injEq]
  refine ⟨?_, ?_, ?_⟩ <;> apply BitVec.eq_of_toNat_eq <;>
    rw [BitVec.extractLsb'_toNat, Nat.shiftRight_eq_div_pow, h] <;> omega

/-- A word is the join of its fields: the three fields cover all its bits. -/
theorem joinCommand_splitCommand (w : Word) : joinCommand (splitCommand w) = w := by
  have hw := w.isLt
  apply BitVec.eq_of_toNat_eq
  rw [joinCommand_toNat]
  simp only [splitCommand, BitVec.extractLsb'_toNat, Nat.shiftRight_eq_div_pow]
  omega

theorem withoutByte_eq_ok {c : CommandWord} {i j : Instr} (h : withoutByte c i = .ok j) : c.data = 0#8 ∧ j = i := by
  unfold withoutByte at h
  split at h
  · rename_i hd
    exact ⟨hd, by simpa using h.symm⟩
  · cases h

/-- What follows from the value of an `if`: a chain of them is taken apart one by one, at a cost linear in its length. -/
theorem of_ite_eq {α : Sort*} {p : Prop} [Decidable p] {a b r : α} {q : Prop} (h : (if p then a else b) = r)
    (ha : p → a = r → q) (hb : b = r → q) : q := by
  by_cases hp : p
  · exact ha hp (by rwa [if_pos hp] at h)
  · exact hb (by rwa [if_neg hp] at h)

/-- The opcode and DATA of fields that select a command are the command's own. -/
theorem fields_of_decodeOpcode {c : CommandWord} {i : Instr} (h : decodeOpcode c = .ok i) :
    c.opc = i.opc ∧ c.data = i.data := by
  have plain : ∀ j : Instr, j.data = 0#8 → c.opc = j.opc → withoutByte c j = .ok i → c.opc = i.opc ∧ c.data = i.data := by
    intro j hj ho h
    obtain ⟨hd, rfl⟩ := withoutByte_eq_ok h
    exact ⟨ho, hd.trans hj.symm⟩
  have byte : ∀ j : Instr, c.data = j.data → c.opc = j.opc → Except.ok j = (.ok i : Except DecodeError Instr) →
      c.opc = i.opc ∧ c.data = i.data := by
    intro j hd ho h
    cases h
    exact ⟨ho, hd⟩
  exact of_ite_eq h (plain .crcInit rfl) fun h => of_ite_eq h (byte (.crcByte c.data) rfl) fun h =>
    of_ite_eq h (plain .crcBuf rfl) fun h => of_ite_eq h (plain .lrcInit rfl) fun h =>
    of_ite_eq h (byte (.lrcByte c.data) rfl) fun h => of_ite_eq h (plain .lrcBuf rfl) fun h =>
    of_ite_eq h (plain .encQuery rfl) fun h => of_ite_eq h (plain .encResp rfl) fun h =>
    of_ite_eq h (byte (.encExc c.data) rfl) fun h => of_ite_eq h (plain .decode rfl) fun h =>
    of_ite_eq h (plain .clrErr rfl) fun h => by cases h

/-- A word that decodes has the fields of the command it decodes to. -/
theorem splitCommand_of_decodeCommand {w : Word} {i : Instr} (h : decodeCommand w = .ok i) :
    splitCommand w = i.fields := by
  refine of_ite_eq h (fun hr h => ?_) fun h => by cases h
  obtain ⟨ho, hd⟩ := fields_of_decodeOpcode h
  generalize splitCommand w = c at *
  obtain ⟨opc, data, rsv⟩ := c
  simp_all [Instr.fields]

/-- The three fields of a word that decodes, one by one. -/
theorem fields_of_decodeCommand {w : Word} {i : Instr} (h : decodeCommand w = .ok i) :
    w.extractLsb' 0 8 = i.opc ∧ w.extractLsb' 8 8 = i.data ∧ w.extractLsb' 16 16 = 0#16 := by
  simpa only [splitCommand, Instr.fields, CommandWord.mk.injEq] using splitCommand_of_decodeCommand h

end Sys2Proof
end

