-- ==== Sys2Proof/Laws/Memory.lean ====
section
/-! SUPPORT. The laws of the frame buffer: a read after a write, the canonical form, the ranges. -/

namespace Sys2Proof.Machine

@[simp] theorem read_nil (i : Nat) : Memory.read [] i = none := rfl

/-- A byte just written reads back. -/
@[simp] theorem read_write_same (m : Memory) (i : Nat) (b : Byte) : (m.write i b).read i = some b := by
  induction m with
  | nil => simp [Memory.write, Memory.read]
  | cons x m ih =>
    obtain ⟨k, c⟩ := x
    by_cases h1 : i < k
    · simp [Memory.write, Memory.read, h1]
    · by_cases h2 : i = k
      · simp [Memory.write, Memory.read, h2]
      · have h3 : ¬ k = i := fun h => h2 h.symm
        simp [Memory.write, Memory.read, h1, h2, h3, ih]

/-- A write leaves every other byte, and its written mark, alone. -/
theorem read_write_other (m : Memory) {i j : Nat} (b : Byte) (h : j ≠ i) : (m.write i b).read j = m.read j := by
  induction m with
  | nil => simp [Memory.write, Memory.read, Ne.symm h]
  | cons x m ih =>
    obtain ⟨k, c⟩ := x
    by_cases h1 : i < k
    · simp [Memory.write, Memory.read, h1, Ne.symm h]
    · by_cases h2 : i = k
      · subst h2
        simp [Memory.write, Memory.read, Ne.symm h]
      · simp only [Memory.write, if_neg h1, if_neg h2, Memory.read, ih]

theorem read_write (m : Memory) (i j : Nat) (b : Byte) :
    (m.write i b).read j = if j = i then some b else m.read j := by
  by_cases h : j = i
  · simp [h]
  · simp [h, read_write_other m b h]

/-- The entries of a buffer after a write: the new one, or old ones. -/
theorem mem_write {m : Memory} {i : Nat} {b : Byte} {c : Host.Cell} (h : c ∈ m.write i b) : c = (i, b) ∨ c ∈ m := by
  induction m with
  | nil => simpa [Memory.write] using h
  | cons x m ih =>
    obtain ⟨k, d⟩ := x
    simp only [Memory.write] at h
    split at h
    · simpa using h
    · split at h
      · simp only [List.mem_cons] at h ⊢
        tauto
      · simp only [List.mem_cons] at h ⊢
        rcases h with h | h
        · exact .inr (.inl h)
        · exact (ih h).imp_right .inr

/-- A write keeps the canonical form. -/
theorem write_wf {m : Memory} (hm : m.wf) (i : Nat) (b : Byte) : (m.write i b).wf := by
  induction m with
  | nil => simp [Memory.write, Memory.wf]
  | cons x m ih =>
    obtain ⟨k, c⟩ := x
    obtain ⟨hx, hrest⟩ := List.pairwise_cons.1 hm
    simp only [Memory.write]
    split
    · rename_i h1
      refine List.pairwise_cons.2 ⟨?_, hm⟩
      intro y hy
      rcases List.mem_cons.1 hy with rfl | hy
      · exact h1
      · exact Nat.lt_trans h1 (hx y hy)
    · split
      · rename_i h2
        exact List.pairwise_cons.2 ⟨fun y hy => h2 ▸ hx y hy, hrest⟩
      · rename_i h1 h2
        refine List.pairwise_cons.2 ⟨?_, ih hrest⟩
        intro y hy
        rcases mem_write hy with rfl | hy
        · simp only
          omega
        · exact hx y hy

/-- Storing a range keeps the canonical form. -/
theorem writeRange_wf {m : Memory} (hm : m.wf) (i : Nat) (bs : List Byte) : (m.writeRange i bs).wf := by
  induction bs generalizing m i with
  | nil => exact hm
  | cons b bs ih => exact ih (write_wf hm i b) (i + 1)

/-- The entries of a buffer after a range is stored: old ones, or ones of the range. -/
theorem mem_writeRange {m : Memory} {i : Nat} {bs : List Byte} {c : Host.Cell} (h : c ∈ m.writeRange i bs) :
    c ∈ m ∨ (i ≤ c.1 ∧ c.1 < i + bs.length) := by
  induction bs generalizing m i with
  | nil => exact .inl h
  | cons b bs ih =>
    rcases ih h with h | ⟨h1, h2⟩
    · rcases mem_write h with rfl | h
      · refine .inr ⟨Nat.le_refl _, ?_⟩
        simp
      · exact .inl h
    · refine .inr ⟨by omega, ?_⟩
      simp only [List.length_cons]
      omega

/-- What a stored range leaves alone. -/
theorem read_writeRange_other (m : Memory) (i : Nat) (bs : List Byte) {j : Nat} (h : j < i ∨ i + bs.length ≤ j) :
    (m.writeRange i bs).read j = m.read j := by
  induction bs generalizing m i with
  | nil => rfl
  | cons b bs ih =>
    simp only [List.length_cons] at h
    rw [Memory.writeRange, ih (m.write i b) (i + 1) (by omega)]
    exact read_write_other m b (by omega)

/-- What a stored range holds. -/
theorem read_writeRange_inside (m : Memory) (i : Nat) (bs : List Byte) {k : Nat} (h : k < bs.length) :
    (m.writeRange i bs).read (i + k) = some bs[k] := by
  induction bs generalizing m i k with
  | nil => simp at h
  | cons b bs ih =>
    cases k with
    | zero =>
      rw [Memory.writeRange, read_writeRange_other _ _ _ (by omega)]
      simp
    | succ k =>
      have := ih (m.write i b) (i + 1) (k := k) (by simpa using h)
      rw [Memory.writeRange, show i + (k + 1) = i + 1 + k by omega, this]
      simp

/-- A range that is written reads as its bytes, and only then. -/
theorem readRange_ok_iff (m : Memory) (i n : Nat) (bs : List Byte) :
    m.readRange i n = .ok bs ↔ bs.length = n ∧ ∀ k, (h : k < bs.length) → m.read (i + k) = some bs[k] := by
  induction n generalizing i bs with
  | zero =>
    constructor
    · intro h
      cases h
      simp
    · intro h
      rw [List.eq_nil_of_length_eq_zero h.1]
      rfl
  | succ n ih =>
    simp only [Memory.readRange]
    cases hb : m.read i with
    | none =>
      constructor
      · intro h
        cases h
      · intro h
        have := h.2 0 (by omega)
        simp [hb] at this
    | some b =>
      cases hr : m.readRange (i + 1) n with
      | error j =>
        constructor
        · intro h
          cases h
        · intro h
          obtain ⟨hl, hget⟩ := h
          cases bs with
          | nil => simp at hl
          | cons c cs =>
            have : m.readRange (i + 1) n = .ok cs := (ih (i + 1) cs).2 ⟨by simpa using hl, fun k hk => by
              have := hget (k + 1) (by simpa using hk)
              rw [show i + 1 + k = i + (k + 1) by omega, this]
              simp⟩
            rw [hr] at this
            cases this
      | ok cs =>
        obtain ⟨hl, hget⟩ := (ih (i + 1) cs).1 hr
        simp only [Except.ok.injEq]
        constructor
        · rintro rfl
          refine ⟨by simp [hl], fun k hk => ?_⟩
          cases k with
          | zero => simpa using hb
          | succ k =>
            have := hget k (by simpa using hk)
            rw [show i + (k + 1) = i + 1 + k by omega, this]
            simp
        · rintro ⟨hl', hget'⟩
          cases bs with
          | nil => simp at hl'
          | cons d ds =>
            have h0 := hget' 0 (by simp)
            have hd : d = b := by simpa [hb] using h0.symm
            subst hd
            congr 1
            refine List.ext_getElem (by simp at hl'; omega) fun k h1 h2 => ?_
            have e1 := hget k h1
            have e2 := hget' (k + 1) (by simpa using h2)
            rw [show i + (k + 1) = i + 1 + k by omega, e1] at e2
            simpa using e2

/-- A range with an unwritten byte names the lowest one. -/
theorem readRange_error {m : Memory} {i n j : Nat} (h : m.readRange i n = .error j) :
    i ≤ j ∧ j < i + n ∧ m.read j = none ∧ ∀ k, i ≤ k → k < j → (m.read k).isSome = true := by
  induction n generalizing i with
  | zero => cases h
  | succ n ih =>
    simp only [Memory.readRange] at h
    cases hb : m.read i with
    | none =>
      simp only [hb, Except.error.injEq] at h
      subst h
      exact ⟨Nat.le_refl _, by omega, hb, fun k h1 h2 => by omega⟩
    | some b =>
      simp only [hb] at h
      cases hr : m.readRange (i + 1) n with
      | ok cs => simp [hr] at h
      | error j' =>
        simp only [hr, Except.error.injEq] at h
        subst h
        obtain ⟨h1, h2, h3, h4⟩ := ih hr
        refine ⟨by omega, by omega, h3, fun k hk1 hk2 => ?_⟩
        rcases Nat.eq_or_lt_of_le hk1 with rfl | hk1
        · simp [hb]
        · exact h4 k hk1 hk2

/-- A range whose bytes are all written reads. -/
theorem readRange_of_written {m : Memory} {i n : Nat} (h : ∀ k, k < n → (m.read (i + k)).isSome = true) :
    ∃ bs, m.readRange i n = .ok bs := by
  cases hr : m.readRange i n with
  | ok bs => exact ⟨bs, rfl⟩
  | error j =>
    obtain ⟨h1, h2, h3, -⟩ := readRange_error hr
    have := h (j - i) (by omega)
    rw [show i + (j - i) = j by omega, h3] at this
    cases this

/-- Two buffers that agree on a range read the same there. -/
theorem readRange_congr {m m' : Memory} {i n : Nat} (h : ∀ k, i ≤ k → k < i + n → m.read k = m'.read k) :
    m.readRange i n = m'.readRange i n := by
  induction n generalizing i with
  | zero => rfl
  | succ n ih =>
    simp only [Memory.readRange]
    rw [h i (Nat.le_refl _) (by omega), ih (fun k h1 h2 => h k (by omega) (by omega))]

/-- A byte that is listed is one of the entries. -/
theorem mem_of_read {m : Memory} {i : Nat} {b : Byte} (h : m.read i = some b) : (i, b) ∈ m := by
  induction m with
  | nil => cases h
  | cons x m ih =>
    obtain ⟨k, c⟩ := x
    simp only [Memory.read] at h
    split at h
    · rename_i hk
      subst hk
      cases h
      simp
    · exact List.mem_cons_of_mem _ (ih h)

end Sys2Proof.Machine
end

