-- ==== Sys2Proof/Laws/State.lean ====
section
/-! SUPPORT. One lemma per field per named update of State, each true by rfl, so that no later proof unfolds a record
update.  (A literal update such as `{ s with crc := c }` needs none: simp projects it by itself.) -/

namespace Sys2Proof.Machine

@[simp] theorem setSuccess_crc (s : State) : (setSuccess s).crc = s.crc := rfl
@[simp] theorem setSuccess_sum (s : State) : (setSuccess s).sum = s.sum := rfl
@[simp] theorem setSuccess_mode (s : State) : (setSuccess s).mode = s.mode := rfl
@[simp] theorem setSuccess_addr (s : State) : (setSuccess s).addr = s.addr := rfl
@[simp] theorem setSuccess_fc (s : State) : (setSuccess s).fc = s.fc := rfl
@[simp] theorem setSuccess_plen (s : State) : (setSuccess s).plen = s.plen := rfl
@[simp] theorem setSuccess_flen (s : State) : (setSuccess s).flen = s.flen := rfl
@[simp] theorem setSuccess_excode (s : State) : (setSuccess s).excode = s.excode := rfl
@[simp] theorem setSuccess_err (s : State) : (setSuccess s).err = false := rfl
@[simp] theorem setSuccess_errAcc (s : State) : (setSuccess s).errAcc = s.errAcc := rfl
@[simp] theorem setSuccess_excf (s : State) : (setSuccess s).excf = s.excf := rfl
@[simp] theorem setSuccess_errCode (s : State) : (setSuccess s).errCode = 0#4 := rfl
@[simp] theorem setSuccess_fbuf (s : State) : (setSuccess s).fbuf = s.fbuf := rfl
@[simp] theorem setSuccess_cfg (s : State) : (setSuccess s).cfg = s.cfg := rfl
@[simp] theorem setSuccess_inReset (s : State) : (setSuccess s).inReset = s.inReset := rfl
@[simp] theorem setSuccess_pending (s : State) : (setSuccess s).pending = s.pending := rfl
@[simp] theorem setSuccess_reply (s : State) : (setSuccess s).reply = s.reply := rfl

@[simp] theorem setFailure_crc (e : CmdError) (s : State) : (setFailure e s).crc = s.crc := rfl
@[simp] theorem setFailure_sum (e : CmdError) (s : State) : (setFailure e s).sum = s.sum := rfl
@[simp] theorem setFailure_mode (e : CmdError) (s : State) : (setFailure e s).mode = s.mode := rfl
@[simp] theorem setFailure_addr (e : CmdError) (s : State) : (setFailure e s).addr = s.addr := rfl
@[simp] theorem setFailure_fc (e : CmdError) (s : State) : (setFailure e s).fc = s.fc := rfl
@[simp] theorem setFailure_plen (e : CmdError) (s : State) : (setFailure e s).plen = s.plen := rfl
@[simp] theorem setFailure_flen (e : CmdError) (s : State) : (setFailure e s).flen = s.flen := rfl
@[simp] theorem setFailure_excode (e : CmdError) (s : State) : (setFailure e s).excode = s.excode := rfl
@[simp] theorem setFailure_err (e : CmdError) (s : State) : (setFailure e s).err = true := rfl
@[simp] theorem setFailure_errAcc (e : CmdError) (s : State) : (setFailure e s).errAcc = true := rfl
@[simp] theorem setFailure_excf (e : CmdError) (s : State) : (setFailure e s).excf = s.excf := rfl
@[simp] theorem setFailure_errCode (e : CmdError) (s : State) : (setFailure e s).errCode = errorCode e := rfl
@[simp] theorem setFailure_fbuf (e : CmdError) (s : State) : (setFailure e s).fbuf = s.fbuf := rfl
@[simp] theorem setFailure_cfg (e : CmdError) (s : State) : (setFailure e s).cfg = s.cfg := rfl
@[simp] theorem setFailure_inReset (e : CmdError) (s : State) : (setFailure e s).inReset = s.inReset := rfl
@[simp] theorem setFailure_pending (e : CmdError) (s : State) : (setFailure e s).pending = s.pending := rfl
@[simp] theorem setFailure_reply (e : CmdError) (s : State) : (setFailure e s).reply = s.reply := rfl

@[simp] theorem resetBlock_crc (s : State) : (resetBlock s).crc = 0xFFFF#16 := rfl
@[simp] theorem resetBlock_sum (s : State) : (resetBlock s).sum = 0x00#8 := rfl
@[simp] theorem resetBlock_mode (s : State) : (resetBlock s).mode = .rtu := rfl
@[simp] theorem resetBlock_addr (s : State) : (resetBlock s).addr = 0x00#8 := rfl
@[simp] theorem resetBlock_fc (s : State) : (resetBlock s).fc = 0x00#8 := rfl
@[simp] theorem resetBlock_plen (s : State) : (resetBlock s).plen = 0x0000#16 := rfl
@[simp] theorem resetBlock_flen (s : State) : (resetBlock s).flen = 0x0000#16 := rfl
@[simp] theorem resetBlock_excode (s : State) : (resetBlock s).excode = 0x00#8 := rfl
@[simp] theorem resetBlock_err (s : State) : (resetBlock s).err = false := rfl
@[simp] theorem resetBlock_errAcc (s : State) : (resetBlock s).errAcc = false := rfl
@[simp] theorem resetBlock_excf (s : State) : (resetBlock s).excf = false := rfl
@[simp] theorem resetBlock_errCode (s : State) : (resetBlock s).errCode = 0#4 := rfl
@[simp] theorem resetBlock_fbuf (s : State) : (resetBlock s).fbuf = [] := rfl
@[simp] theorem resetBlock_cfg (s : State) : (resetBlock s).cfg = s.cfg := rfl
@[simp] theorem resetBlock_inReset (s : State) : (resetBlock s).inReset = s.inReset := rfl
@[simp] theorem resetBlock_pending (s : State) : (resetBlock s).pending = s.pending := rfl
@[simp] theorem resetBlock_reply (s : State) : (resetBlock s).reply = .none := rfl

@[simp] theorem holdInReset_crc (s : State) : (holdInReset s).crc = 0xFFFF#16 := rfl
@[simp] theorem holdInReset_sum (s : State) : (holdInReset s).sum = 0x00#8 := rfl
@[simp] theorem holdInReset_mode (s : State) : (holdInReset s).mode = .rtu := rfl
@[simp] theorem holdInReset_addr (s : State) : (holdInReset s).addr = 0x00#8 := rfl
@[simp] theorem holdInReset_fc (s : State) : (holdInReset s).fc = 0x00#8 := rfl
@[simp] theorem holdInReset_plen (s : State) : (holdInReset s).plen = 0x0000#16 := rfl
@[simp] theorem holdInReset_flen (s : State) : (holdInReset s).flen = 0x0000#16 := rfl
@[simp] theorem holdInReset_excode (s : State) : (holdInReset s).excode = 0x00#8 := rfl
@[simp] theorem holdInReset_err (s : State) : (holdInReset s).err = false := rfl
@[simp] theorem holdInReset_errAcc (s : State) : (holdInReset s).errAcc = false := rfl
@[simp] theorem holdInReset_excf (s : State) : (holdInReset s).excf = false := rfl
@[simp] theorem holdInReset_errCode (s : State) : (holdInReset s).errCode = 0#4 := rfl
@[simp] theorem holdInReset_fbuf (s : State) : (holdInReset s).fbuf = [] := rfl
@[simp] theorem holdInReset_cfg (s : State) : (holdInReset s).cfg = s.cfg := rfl
@[simp] theorem holdInReset_inReset (s : State) : (holdInReset s).inReset = true := rfl
@[simp] theorem holdInReset_pending (s : State) : (holdInReset s).pending = s.pending := rfl
@[simp] theorem holdInReset_reply (s : State) : (holdInReset s).reply = .none := rfl

theorem leaveReset_crc (s : State) (h : s.inReset = true) : (leaveReset s).crc = 0xFFFF#16 := by
  simp [leaveReset, h]
theorem leaveReset_sum (s : State) (h : s.inReset = true) : (leaveReset s).sum = 0x00#8 := by
  simp [leaveReset, h]
theorem leaveReset_mode (s : State) (h : s.inReset = true) : (leaveReset s).mode = .rtu := by
  simp [leaveReset, h]
theorem leaveReset_addr (s : State) (h : s.inReset = true) : (leaveReset s).addr = 0x00#8 := by
  simp [leaveReset, h]
theorem leaveReset_fc (s : State) (h : s.inReset = true) : (leaveReset s).fc = 0x00#8 := by
  simp [leaveReset, h]
theorem leaveReset_plen (s : State) (h : s.inReset = true) : (leaveReset s).plen = 0x0000#16 := by
  simp [leaveReset, h]
theorem leaveReset_flen (s : State) (h : s.inReset = true) : (leaveReset s).flen = 0x0000#16 := by
  simp [leaveReset, h]
theorem leaveReset_excode (s : State) (h : s.inReset = true) : (leaveReset s).excode = 0x00#8 := by
  simp [leaveReset, h]
theorem leaveReset_err (s : State) (h : s.inReset = true) : (leaveReset s).err = false := by
  simp [leaveReset, h]
theorem leaveReset_errAcc (s : State) (h : s.inReset = true) : (leaveReset s).errAcc = false := by
  simp [leaveReset, h]
theorem leaveReset_excf (s : State) (h : s.inReset = true) : (leaveReset s).excf = false := by
  simp [leaveReset, h]
theorem leaveReset_errCode (s : State) (h : s.inReset = true) : (leaveReset s).errCode = 0#4 := by
  simp [leaveReset, h]
theorem leaveReset_fbuf (s : State) (h : s.inReset = true) : (leaveReset s).fbuf = [] := by
  simp [leaveReset, h]
theorem leaveReset_cfg (s : State) (h : s.inReset = true) : (leaveReset s).cfg = s.cfg := by
  simp [leaveReset, h]
theorem leaveReset_inReset (s : State) (h : s.inReset = true) : (leaveReset s).inReset = false := by
  simp [leaveReset, h]
theorem leaveReset_pending (s : State) (h : s.inReset = true) : (leaveReset s).pending = s.pending := by
  simp [leaveReset, h]
theorem leaveReset_reply (s : State) (h : s.inReset = true) : (leaveReset s).reply = .none := by
  simp [leaveReset, h]

theorem leaveReset_of_released (s : State) (h : s.inReset = false) : leaveReset s = s := by
  simp [leaveReset, h]

/-! The registers a host write can change are MODE, ADDR, FC, PLEN and FLEN (10_state.md R12). -/

@[simp] theorem writeReg_crc (r : RegName) (v : Word) (s : State) : (writeReg r v s).crc = s.crc := by
  cases r <;> rfl
@[simp] theorem writeReg_sum (r : RegName) (v : Word) (s : State) : (writeReg r v s).sum = s.sum := by
  cases r <;> rfl
theorem writeReg_mode (r : RegName) (v : Word) (s : State) :
    (writeReg r v s).mode = if r = .mode then framingOfBit (v.getLsbD 0) else s.mode := by cases r <;> rfl
theorem writeReg_addr (r : RegName) (v : Word) (s : State) :
    (writeReg r v s).addr = if r = .addr then v.extractLsb' 0 8 else s.addr := by cases r <;> rfl
theorem writeReg_fc (r : RegName) (v : Word) (s : State) :
    (writeReg r v s).fc = if r = .fc then v.extractLsb' 0 8 else s.fc := by cases r <;> rfl
theorem writeReg_plen (r : RegName) (v : Word) (s : State) :
    (writeReg r v s).plen = if r = .plen then v.extractLsb' 0 16 else s.plen := by cases r <;> rfl
theorem writeReg_flen (r : RegName) (v : Word) (s : State) :
    (writeReg r v s).flen = if r = .flen then v.extractLsb' 0 16 else s.flen := by cases r <;> rfl
@[simp] theorem writeReg_excode (r : RegName) (v : Word) (s : State) : (writeReg r v s).excode = s.excode := by
  cases r <;> rfl
@[simp] theorem writeReg_err (r : RegName) (v : Word) (s : State) : (writeReg r v s).err = s.err := by
  cases r <;> rfl
@[simp] theorem writeReg_errAcc (r : RegName) (v : Word) (s : State) : (writeReg r v s).errAcc = s.errAcc := by
  cases r <;> rfl
@[simp] theorem writeReg_excf (r : RegName) (v : Word) (s : State) : (writeReg r v s).excf = s.excf := by
  cases r <;> rfl
@[simp] theorem writeReg_errCode (r : RegName) (v : Word) (s : State) : (writeReg r v s).errCode = s.errCode := by
  cases r <;> rfl
@[simp] theorem writeReg_fbuf (r : RegName) (v : Word) (s : State) : (writeReg r v s).fbuf = s.fbuf := by
  cases r <;> rfl
@[simp] theorem writeReg_cfg (r : RegName) (v : Word) (s : State) : (writeReg r v s).cfg = s.cfg := by
  cases r <;> rfl
@[simp] theorem writeReg_inReset (r : RegName) (v : Word) (s : State) : (writeReg r v s).inReset = s.inReset := by
  cases r <;> rfl
@[simp] theorem writeReg_pending (r : RegName) (v : Word) (s : State) : (writeReg r v s).pending = s.pending := by
  cases r <;> rfl
@[simp] theorem writeReg_reply (r : RegName) (v : Word) (s : State) : (writeReg r v s).reply = s.reply := by
  cases r <;> rfl

end Sys2Proof.Machine
end

