-- ==== Sys2Proof/Laws/Ops.lean ====
section
/-! SUPPORT. For each shared operation, one lemma that says everything it can do when it answers a next state, and one
that runs it when its bytes are written. Later proofs cite these instead of unfolding the operation. -/

namespace Sys2Proof.Machine

@[simp] theorem complete_eq (s : State) : complete s = .next (setSuccess s) := rfl

@[simp] theorem raise_eq (e : CmdError) (s : State) : raise e s = .next (setFailure e s) := rfl

/-! ## The use of buffer bytes -/

theorem useByte_of_read {m : Memory} {i : Nat} {b : Byte} (h : m.read i = some b) (next : Byte → Out) :
    useByte m i next = next b := by
  simp [useByte, h]

theorem useByte_next {m : Memory} {i : Nat} {next : Byte → Out} {t : State} :
    useByte m i next = .next t ↔ ∃ b, m.read i = some b ∧ next b = .next t := by
  unfold useByte
  cases m.read i <;> simp

theorem useBytes_of_ok {m : Memory} {i n : Nat} {bs : List Byte} (h : m.readRange i n = .ok bs)
    (next : List Byte → Out) : useBytes m i n next = next bs := by
  simp [useBytes, h]

theorem useBytes_next {m : Memory} {i n : Nat} {next : List Byte → Out} {t : State} :
    useBytes m i n next = .next t ↔ ∃ bs, m.readRange i n = .ok bs ∧ next bs = .next t := by
  unfold useBytes
  cases m.readRange i n <;> simp

/-- Using bytes stops only where an unwritten byte is used, or where what follows stops. -/
theorem useBytes_fault {m : Memory} {i n : Nat} {next : List Byte → Out} {f : Fault}
    (h : useBytes m i n next = .fault f) :
    (∃ j, m.readRange i n = .error j ∧ f = .unwrittenBuffer j) ∨
      ∃ bs, m.readRange i n = .ok bs ∧ next bs = .fault f := by
  unfold useBytes at h
  cases hr : m.readRange i n with
  | ok bs => exact .inr ⟨bs, rfl, by simpa [hr] using h⟩
  | error j => exact .inl ⟨j, rfl, by simpa [hr] using h.symm⟩

/-! ## The accumulator of the mode -/

@[simp] theorem accumulate_mode (bs : List Byte) (s : State) : (accumulate bs s).mode = s.mode := by
  unfold accumulate; cases s.mode <;> rfl

@[simp] theorem accumulate_addr (bs : List Byte) (s : State) : (accumulate bs s).addr = s.addr := by
  unfold accumulate; cases s.mode <;> rfl

@[simp] theorem accumulate_fc (bs : List Byte) (s : State) : (accumulate bs s).fc = s.fc := by
  unfold accumulate; cases s.mode <;> rfl

@[simp] theorem accumulate_plen (bs : List Byte) (s : State) : (accumulate bs s).plen = s.plen := by
  unfold accumulate; cases s.mode <;> rfl

@[simp] theorem accumulate_flen (bs : List Byte) (s : State) : (accumulate bs s).flen = s.flen := by
  unfold accumulate; cases s.mode <;> rfl

@[simp] theorem accumulate_excode (bs : List Byte) (s : State) : (accumulate bs s).excode = s.excode := by
  unfold accumulate; cases s.mode <;> rfl

@[simp] theorem accumulate_err (bs : List Byte) (s : State) : (accumulate bs s).err = s.err := by
  unfold accumulate; cases s.mode <;> rfl

@[simp] theorem accumulate_errAcc (bs : List Byte) (s : State) : (accumulate bs s).errAcc = s.errAcc := by
  unfold accumulate; cases s.mode <;> rfl

@[simp] theorem accumulate_excf (bs : List Byte) (s : State) : (accumulate bs s).excf = s.excf := by
  unfold accumulate; cases s.mode <;> rfl

@[simp] theorem accumulate_errCode (bs : List Byte) (s : State) : (accumulate bs s).errCode = s.errCode := by
  unfold accumulate; cases s.mode <;> rfl

@[simp] theorem accumulate_fbuf (bs : List Byte) (s : State) : (accumulate bs s).fbuf = s.fbuf := by
  unfold accumulate; cases s.mode <;> rfl

@[simp] theorem accumulate_cfg (bs : List Byte) (s : State) : (accumulate bs s).cfg = s.cfg := by
  unfold accumulate; cases s.mode <;> rfl

@[simp] theorem accumulate_inReset (bs : List Byte) (s : State) : (accumulate bs s).inReset = s.inReset := by
  unfold accumulate; cases s.mode <;> rfl

@[simp] theorem accumulate_pending (bs : List Byte) (s : State) : (accumulate bs s).pending = s.pending := by
  unfold accumulate; cases s.mode <;> rfl

@[simp] theorem accumulate_reply (bs : List Byte) (s : State) : (accumulate bs s).reply = s.reply := by
  unfold accumulate; cases s.mode <;> rfl

theorem accumulate_crc (bs : List Byte) (s : State) :
    (accumulate bs s).crc = if s.mode = .rtu then crc16 bs else s.crc := by
  unfold accumulate; cases h : s.mode <;> rfl

theorem accumulate_sum (bs : List Byte) (s : State) :
    (accumulate bs s).sum = if s.mode = .rtu then s.sum else sum8 bs := by
  unfold accumulate; cases h : s.mode <;> rfl

@[simp] theorem checkBytes_length (m : Framing) (bs : List Byte) : (checkBytes m bs).length = checkWidth m := by
  cases m <;> rfl

theorem checkWidth_pos (m : Framing) : 1 ≤ checkWidth m := by cases m <;> decide

theorem checkWidth_le (m : Framing) : checkWidth m ≤ 2 := by cases m <;> decide

/-! ## The shared operations of the commands -/

/-- `*_BUF`: PayloadTooLarge, or the bytes FBUF[0..FLEN) and what follows. -/
theorem useBuffer_next {s t : State} {next : List Byte → Out} (h : useBuffer s next = .next t) :
    (capacity s < s.flen.toNat ∧ t = setFailure .payloadTooLarge s) ∨
      (s.flen.toNat ≤ capacity s ∧ ∃ bs, s.fbuf.readRange 0 s.flen.toNat = .ok bs ∧ next bs = .next t) := by
  unfold useBuffer at h
  split at h
  · rename_i hc
    exact .inl ⟨hc, by simpa using h.symm⟩
  · rename_i hc
    exact .inr ⟨by omega, useBytes_next.1 h⟩

/-- `append_checksum(k)`: the bytes FBUF[0..k) are written, and the state with their checksum goes on. -/
theorem appendChecksum_next {k : Nat} {s t : State} {next : State → Out} :
    appendChecksum k s next = .next t ↔
      ∃ bs, s.fbuf.readRange 0 k = .ok bs ∧
        next { accumulate bs s with fbuf := s.fbuf.writeRange k (checkBytes s.mode bs) } = .next t := by
  unfold appendChecksum
  exact useBytes_next

/-- `check_ok(n)`: all the bytes are written, and the comparison goes on. -/
theorem checkOk_next {n : Nat} {s t : State} {next : Bool → Out} :
    checkOk n s next = .next t ↔
      ∃ bs, s.fbuf.readRange 0 (n - checkWidth s.mode) = .ok bs ∧
        ∃ cs, s.fbuf.readRange (n - checkWidth s.mode) (checkWidth s.mode) = .ok cs ∧
          next (checkBytes s.mode bs == cs) = .next t := by
  unfold checkOk
  rw [useBytes_next]
  constructor
  · rintro ⟨bs, h1, h2⟩
    exact ⟨bs, h1, useBytes_next.1 h2⟩
  · rintro ⟨bs, h1, h2⟩
    exact ⟨bs, h1, useBytes_next.2 h2⟩

/-- `unpack_exception(n)`: EXCF is bit 7 of FBUF[1], EXCODE is FBUF[2] where the flag is set and there is a payload byte,
and 0 otherwise. -/
theorem unpackException_next {n : Nat} {s t : State} {next : State → Out}
    (h : unpackException n s next = .next t) :
    ∃ f, s.fbuf.read 1 = some f ∧
      ((f.getLsbD 7 = true ∧ 1 ≤ n - 2 - checkWidth s.mode ∧
          ∃ e, s.fbuf.read 2 = some e ∧ next { s with excf := true, excode := e } = .next t) ∨
        (¬(f.getLsbD 7 = true ∧ 1 ≤ n - 2 - checkWidth s.mode) ∧
          next { s with excf := f.getLsbD 7, excode := 0x00#8 } = .next t)) := by
  unfold unpackException at h
  obtain ⟨f, hf, h⟩ := useByte_next.1 h
  refine ⟨f, hf, ?_⟩
  split at h
  · rename_i hc
    exact .inl ⟨hc.1, hc.2, useByte_next.1 h⟩
  · rename_i hc
    exact .inr ⟨hc, h⟩

/-- The body of ENC_QUERY and ENC_RESP: PayloadTooLarge, or the frame in place. -/
theorem encodePayload_next {s t : State} (h : encodePayload s = .next t) :
    (capacity s < frameLength s ∧ t = setFailure .payloadTooLarge s) ∨
      (frameLength s ≤ capacity s ∧
        ∃ bs, ((s.fbuf.write 0 s.addr).write 1 s.fc).readRange 0 (2 + s.plen.toNat) = .ok bs ∧
          t = setSuccess { accumulate bs s with
            fbuf := ((s.fbuf.write 0 s.addr).write 1 s.fc).writeRange (2 + s.plen.toNat) (checkBytes s.mode bs)
            flen := BitVec.ofNat 16 (frameLength s) }) := by
  unfold encodePayload at h
  split at h
  · rename_i hc
    exact .inl ⟨hc, by simpa using h.symm⟩
  · rename_i hc
    obtain ⟨bs, hb, h⟩ := appendChecksum_next.1 h
    refine .inr ⟨by omega, bs, hb, ?_⟩
    simp only [complete_eq, Host.Outcome.next.injEq] at h
    rw [← h]
    unfold accumulate
    cases s.mode <;> rfl

/-- ENC_EXC: always the exception frame in place, since CAP is at least 5 (00_scope.md R5). -/
theorem execEncExc_next {code : Byte} {s t : State} (h : execEncExc code s = .next t) :
    ∃ bs, (((s.fbuf.write 0 s.addr).write 1 (s.fc ||| 0x80#8)).write 2 code).readRange 0 3 = .ok bs ∧
      t = setSuccess { accumulate bs s with
        fbuf := (((s.fbuf.write 0 s.addr).write 1 (s.fc ||| 0x80#8)).write 2 code).writeRange 3 (checkBytes s.mode bs)
        plen := 1#16
        flen := BitVec.ofNat 16 (3 + checkWidth s.mode) } := by
  unfold execEncExc at h
  have hcap : ¬(3 + checkWidth s.mode > capacity s) := by
    have h5 : 5 ≤ capacity s := s.cfg.atLeastFive
    have h2 := checkWidth_le s.mode
    omega
  rw [if_neg hcap] at h
  obtain ⟨bs, hb, h⟩ := appendChecksum_next.1 h
  refine ⟨bs, hb, ?_⟩
  simp only [complete_eq, Host.Outcome.next.injEq] at h
  rw [← h]
  unfold accumulate
  cases s.mode <;> rfl

/-- DECODE: one of its three errors, or an accepted frame unpacked. -/
theorem execDecode_next {s t : State} (h : execDecode s = .next t) :
    (capacity s < s.flen.toNat ∧ t = setFailure .payloadTooLarge s) ∨
    (s.flen.toNat ≤ capacity s ∧ s.flen.toNat < 2 + checkWidth s.mode ∧ t = setFailure .frameTooShort s) ∨
    (s.flen.toNat ≤ capacity s ∧ 2 + checkWidth s.mode ≤ s.flen.toNat ∧
      ∃ bs cs, s.fbuf.readRange 0 (s.flen.toNat - checkWidth s.mode) = .ok bs ∧
        s.fbuf.readRange (s.flen.toNat - checkWidth s.mode) (checkWidth s.mode) = .ok cs ∧
        ((checkBytes s.mode bs ≠ cs ∧ t = setFailure .checksumMismatch s) ∨
          (checkBytes s.mode bs = cs ∧
            ∃ a f e, s.fbuf.read 0 = some a ∧ s.fbuf.read 1 = some f ∧
              ((f.getLsbD 7 = true ∧ 1 ≤ s.flen.toNat - 2 - checkWidth s.mode ∧ s.fbuf.read 2 = some e) ∨
                (¬(f.getLsbD 7 = true ∧ 1 ≤ s.flen.toNat - 2 - checkWidth s.mode) ∧ e = 0x00#8)) ∧
              t = setSuccess { accumulate bs s with
                addr := a
                fc := f
                plen := BitVec.ofNat 16 (s.flen.toNat - 2 - checkWidth s.mode)
                excf := f.getLsbD 7
                excode := e }))) := by
  unfold execDecode at h
  split at h
  · rename_i hc
    exact .inl ⟨hc, by simpa using h.symm⟩
  rename_i hc
  split at h
  · rename_i hs
    exact .inr (.inl ⟨by omega, hs, by simpa using h.symm⟩)
  rename_i hs
  obtain ⟨bs, hb, cs, hcs, h⟩ := checkOk_next.1 h
  refine .inr (.inr ⟨by omega, by omega, bs, cs, hb, hcs, ?_⟩)
  by_cases heq : checkBytes s.mode bs = cs
  · right
    refine ⟨heq, ?_⟩
    rw [if_pos (by simpa using heq)] at h
    obtain ⟨a, ha, h⟩ := useByte_next.1 h
    obtain ⟨f, hf, h⟩ := useByte_next.1 h
    obtain ⟨f', hf', h⟩ := unpackException_next h
    obtain rfl : f' = f := by simpa [hf] using hf'.symm
    rcases h with ⟨h7, hp, e, he, h⟩ | ⟨hn, h⟩
    · obtain ⟨bs', hb', h⟩ := useBytes_next.1 h
      obtain rfl : bs' = bs := by simpa [hb] using hb'.symm
      refine ⟨a, f', e, ha, hf, .inl ⟨h7, hp, he⟩, ?_⟩
      simp only [complete_eq, Host.Outcome.next.injEq] at h
      rw [← h, h7]
      unfold accumulate
      cases s.mode <;> rfl
    · obtain ⟨bs', hb', h⟩ := useBytes_next.1 h
      obtain rfl : bs' = bs := by simpa [hb] using hb'.symm
      refine ⟨a, f', 0x00#8, ha, hf, .inr ⟨hn, rfl⟩, ?_⟩
      simp only [complete_eq, Host.Outcome.next.injEq] at h
      rw [← h]
      unfold accumulate
      cases s.mode <;> rfl
  · left
    refine ⟨heq, ?_⟩
    rw [if_neg (by simpa using heq)] at h
    simpa using h.symm

/-! ## The port -/

@[simp] theorem accept_of_nil {s : State} (h : s.pending = []) : accept s = .settled (.next s) := by
  simp [accept, h]

theorem accept_of_cons {s : State} {e : HostEvent} {rest : List HostEvent} (h : s.pending = e :: rest) :
    accept s = serve e { s with pending := rest } := by
  simp [accept, h]

theorem step_of_nil {s : State} (h : s.pending = []) : step s = .next s := by
  simp [step, runAccepted, h]

theorem step_of_cons {s : State} {e : HostEvent} {rest : List HostEvent} (h : s.pending = e :: rest) :
    step s = runAccepted (serve e { s with pending := rest }) := by
  simp [step, accept_of_cons h]

/-- The registers of the map have distinct offsets, each a multiple of 4. -/
theorem regAt?_regOffset (r : RegName) : regAt? (regOffset r) = some r := by cases r <;> rfl

theorem regOffset_of_regAt? {a : Nat} {r : RegName} (h : regAt? a = some r) : regOffset r = a := by
  have at_ : ∀ r' : RegName, a = regOffset r' → some r' = some r → regOffset r = a := by
    intro r' ha h
    cases h
    exact ha.symm
  exact of_ite_eq h (at_ .cmd) fun h => of_ite_eq h (at_ .status) fun h => of_ite_eq h (at_ .mode) fun h =>
    of_ite_eq h (at_ .crc) fun h => of_ite_eq h (at_ .lrc) fun h => of_ite_eq h (at_ .addr) fun h =>
    of_ite_eq h (at_ .fc) fun h => of_ite_eq h (at_ .plen) fun h => of_ite_eq h (at_ .flen) fun h =>
    of_ite_eq h (at_ .excode) fun h => of_ite_eq h (at_ .cap) fun h => by cases h

end Sys2Proof.Machine
end

