-- ==== Sys2Proof/Laws/Step.lean ====
section
/-! SUPPORT. What an access and a step can do, said once. -/

namespace Sys2Proof.Machine

/-! ## Which accesses are admitted -/

theorem regAccess?_eq_some {a n : Nat} {r : RegName} (h : regAccess? a n = some r) : n = 4 ∧ regOffset r = a := by
  unfold regAccess? at h
  split at h
  · rename_i hc
    exact ⟨hc.1, regOffset_of_regAt? h⟩
  · cases h

theorem regAccess?_regOffset (r : RegName) : regAccess? (regOffset r) 4 = some r := by cases r <;> rfl

theorem windowAccess?_eq_some {s : State} {a n i : Nat} (h : windowAccess? s a n = some i) :
    a = windowBase + i ∧ (n = 1 ∨ n = 2 ∨ n = 4) ∧ a % n = 0 ∧ i + n ≤ capacity s := by
  unfold windowAccess? at h
  split at h
  · rename_i hc
    simp only [Option.some.injEq] at h
    subst h
    exact ⟨by omega, hc.2.1, hc.2.2.1, hc.2.2.2⟩
  · cases h

/-- Register offsets lie below the frame buffer window. -/
theorem regOffset_lt (r : RegName) : regOffset r < 0x2C := by cases r <;> decide

@[simp] theorem splitBytes_length (n : Nat) (v : Word) : (splitBytes n v).length = n := by
  induction n generalizing v with
  | zero => rfl
  | succ n ih => simp [splitBytes, ih]

/-! ## What an admitted access does -/

/-- A read that is answered changes nothing but the reply. -/
theorem busRead_next {a : BlockAddr} {n : Nat} {s t : State} (h : busRead a n s = .next t) :
    (∃ r, regAccess? a.toNat n = some r ∧ regReadable r = true ∧ t = { s with reply := .data (readReg r s) }) ∨
      (∃ i bs, windowAccess? s a.toNat n = some i ∧ s.fbuf.readRange i n = .ok bs ∧
        t = { s with reply := .data (packBytes bs) }) := by
  unfold busRead at h
  split at h
  · rename_i r hr
    split at h
    · rename_i hc
      exact .inl ⟨r, hr, hc, by simpa using h.symm⟩
    · cases h
  · split at h
    · rename_i i hi
      obtain ⟨bs, hb, h⟩ := useBytes_next.1 h
      exact .inr ⟨i, bs, hi, hb, by simpa using h.symm⟩
    · cases h

/-- A write is handed on as a command, stores a register field, stores buffer bytes, or is refused. -/
theorem busWrite_cases (a : BlockAddr) (n : Nat) (v : Word) (s : State) :
    (regAccess? a.toNat n = some .cmd ∧ busWrite a n v s = .command v { s with reply := .done }) ∨
    (∃ r, r ≠ .cmd ∧ regAccess? a.toNat n = some r ∧ regWritable r = true ∧
      busWrite a n v s = .settled (.next { writeReg r v s with reply := .done })) ∨
    (∃ i, windowAccess? s a.toNat n = some i ∧
      busWrite a n v s =
        .settled (.next { s with fbuf := s.fbuf.writeRange i (splitBytes n v), reply := .done })) ∨
    busWrite a n v s = .settled (.fault (.busError a)) := by
  unfold busWrite
  cases hr : regAccess? a.toNat n with
  | some r =>
    cases r
    case cmd => exact .inl ⟨rfl, rfl⟩
    all_goals
      first
      | exact .inr (.inl ⟨_, by simp, rfl, rfl, rfl⟩)
      | exact .inr (.inr (.inr rfl))
  | none =>
    cases hw : windowAccess? s a.toNat n with
    | some i => exact .inr (.inr (.inl ⟨i, rfl, rfl⟩))
    | none => exact .inr (.inr (.inr rfl))

/-- A command word runs a command, or is illegal. -/
theorem runCommand_cases (w : Word) (s : State) :
    (∃ i, decodeCommand w = .ok i ∧ runCommand w s = exec i s) ∨
      (∃ e, decodeCommand w = .error e ∧ runCommand w s = .next (setFailure .illegalCommand s)) := by
  unfold runCommand
  cases h : decodeCommand w with
  | ok i => exact .inl ⟨i, rfl, rfl⟩
  | error e => exact .inr ⟨e, rfl, rfl⟩

theorem runCommand_of_ok {w : Word} {i : Instr} (h : decodeCommand w = .ok i) (s : State) :
    runCommand w s = exec i s := by
  simp [runCommand, h]

theorem runCommand_of_error {w : Word} {e : DecodeError} (h : decodeCommand w = .error e) (s : State) :
    runCommand w s = .next (setFailure .illegalCommand s) := by
  simp [runCommand, h, illegalCommand]

/-! ## What a step can do -/

/-- Everything a step that answers a next state can have done. -/
theorem step_cases {s t : State} (h : step s = .next t) :
    (s.pending = [] ∧ t = s) ∨
    ∃ e rest, s.pending = e :: rest ∧
      ((∃ a n, e = .read a n ∧ s.inReset = false ∧ busRead a n { s with pending := rest } = .next t) ∨
       (∃ a n v, e = .write a n v ∧ s.inReset = false ∧
         ((regAccess? a.toNat n = some .cmd ∧
             runCommand v { s with pending := rest, reply := .done } = .next t) ∨
          (∃ r, r ≠ .cmd ∧ regAccess? a.toNat n = some r ∧ regWritable r = true ∧
             t = { writeReg r v { s with pending := rest } with reply := .done }) ∨
          (∃ i, windowAccess? s a.toNat n = some i ∧
             t = { s with
               pending := rest
               fbuf := s.fbuf.writeRange i (splitBytes n v)
               reply := .done }))) ∨
       (e = .assertReset ∧ t = holdInReset { s with pending := rest }) ∨
       (e = .releaseReset ∧ t = leaveReset { s with pending := rest }) ∨
       (∃ v, e = .abandonedWrite v ∧ s.inReset = false ∧
         t = { holdInReset { s with pending := rest } with reply := .noCompletion })) := by
  cases hp : s.pending with
  | nil =>
    rw [step_of_nil hp] at h
    exact .inl ⟨rfl, by simpa using h.symm⟩
  | cons e rest =>
    rw [step_of_cons hp] at h
    refine .inr ⟨e, rest, rfl, ?_⟩
    cases e with
    | read a n =>
      simp only [serve] at h
      split at h
      · cases h
      · rename_i hr
        exact .inl ⟨a, n, rfl, by simpa using hr, h⟩
    | write a n v =>
      simp only [serve] at h
      split at h
      · cases h
      · rename_i hr
        refine .inr (.inl ⟨a, n, v, rfl, by simpa using hr, ?_⟩)
        rcases busWrite_cases a n v { s with pending := rest } with ⟨h1, h2⟩ | ⟨r, h0, h1, h2, h3⟩ | ⟨i, h1, h2⟩ | h1
        · rw [h2] at h
          exact .inl ⟨h1, h⟩
        · rw [h3] at h
          simp only [runAccepted, Host.Outcome.next.injEq] at h
          exact .inr (.inl ⟨r, h0, h1, h2, h.symm⟩)
        · rw [h2] at h
          simp only [runAccepted, Host.Outcome.next.injEq] at h
          exact .inr (.inr ⟨i, h1, h.symm⟩)
        · rw [h1] at h
          cases h
    | assertReset =>
      simp only [serve, runAccepted, Host.Outcome.next.injEq] at h
      exact .inr (.inr (.inl ⟨rfl, h.symm⟩))
    | releaseReset =>
      simp only [serve, runAccepted, Host.Outcome.next.injEq] at h
      exact .inr (.inr (.inr (.inl ⟨rfl, h.symm⟩)))
    | abandonedWrite v =>
      simp only [serve] at h
      split at h
      · cases h
      · rename_i hr
        simp only [runAccepted, Host.Outcome.next.injEq] at h
        exact .inr (.inr (.inr (.inr ⟨v, rfl, by simpa using hr, h.symm⟩)))

end Sys2Proof.Machine
end

