-- ==== Sys2Proof/Laws/Bus.lean ====
section
/-! SUPPORT. The host port: which accesses address what, the byte order of the window, and a step that takes an
access. -/

namespace Sys2Proof.Machine

/-! ## Addresses -/

/-- From offset 0x2C on there is no register. -/
theorem regAccess?_eq_none {a n : Nat} (h : 0x2C ≤ a) : regAccess? a n = none := by
  cases hr : regAccess? a n with
  | none => rfl
  | some r =>
    have h1 := (regAccess?_eq_some hr).2
    have h2 := regOffset_lt r
    omega

theorem windowAccess?_of_admitted {s : State} {a n i : Nat} (ha : a = 0x10000 + i)
    (h : (n = 1 ∨ n = 2 ∨ n = 4) ∧ a % n = 0 ∧ i + n ≤ capacity s) : windowAccess? s a n = some i := by
  unfold windowAccess? windowBase
  rw [if_pos ⟨by omega, h.1, h.2.1, by omega⟩]
  exact congrArg some (by omega)

theorem windowAccess?_of_refused {s : State} {a n : Nat}
    (h : ∀ i, a = 0x10000 + i → ¬((n = 1 ∨ n = 2 ∨ n = 4) ∧ a % n = 0 ∧ i + n ≤ capacity s)) :
    windowAccess? s a n = none := by
  cases hw : windowAccess? s a n with
  | none => rfl
  | some i =>
    obtain ⟨h1, h2⟩ := windowAccess?_eq_some hw
    exact absurd h2 (h i h1)

/-! ## Byte order -/

/-- Packing puts each byte above the ones before it. -/
theorem packBytes_cons_toNat (b : Byte) (bs : List Byte) (hl : bs.length ≤ 3)
    (h : (packBytes bs).toNat < 2 ^ (8 * bs.length)) :
    (packBytes (b :: bs)).toNat = (packBytes bs).toNat * 256 + b.toNat := by
  have hb := b.isLt
  have hlt : (packBytes bs).toNat * 256 < 2 ^ 32 := by
    have : (2 : Nat) ^ (8 * bs.length) ≤ 2 ^ 24 := Nat.pow_le_pow_right (by decide) (by omega)
    omega
  rw [packBytes, BitVec.toNat_or, BitVec.toNat_shiftLeft, BitVec.toNat_setWidth, Nat.shiftLeft_eq,
    Nat.mod_eq_of_lt hlt, Nat.mod_eq_of_lt (by omega)]
  have := Nat.shiftLeft_add_eq_or_of_lt (i := 8) hb (packBytes bs).toNat
  rw [Nat.shiftLeft_eq] at this
  exact this.symm

/-- Up to four packed bytes fill exactly their bits, byte `k` at bits `[8k+7:8k]`. -/
theorem packBytes_spec : ∀ bs : List Byte, bs.length ≤ 4 →
    (packBytes bs).toNat < 2 ^ (8 * bs.length) ∧
      ∀ k, (h : k < bs.length) → (packBytes bs).extractLsb' (8 * k) 8 = bs[k] := by
  intro bs
  induction bs with
  | nil => intro _; simp [packBytes]
  | cons b bs ih =>
    intro hl
    simp only [List.length_cons] at hl
    obtain ⟨h1, h2⟩ := ih (by omega)
    have hval := packBytes_cons_toNat b bs (by omega) h1
    have hb := b.isLt
    constructor
    · rw [hval, List.length_cons, Nat.mul_add, Nat.pow_add]
      omega
    · intro k hk
      apply BitVec.eq_of_toNat_eq
      rw [BitVec.extractLsb'_toNat, hval, Nat.shiftRight_eq_div_pow]
      rcases k with _ | k
      · simp; omega
      · have hk2 := congrArg BitVec.toNat (h2 k (by simpa using hk))
        rw [BitVec.extractLsb'_toNat, Nat.shiftRight_eq_div_pow] at hk2
        rw [show 8 * (k + 1) = 8 + 8 * k by omega, Nat.pow_add, ← Nat.div_div_eq_div_mul,
          show ((packBytes bs).toNat * 256 + b.toNat) / 2 ^ 8 = (packBytes bs).toNat by omega, hk2]
        simp

/-- Byte `k` of a split word is its bits `[8k+7:8k]`. -/
theorem splitBytes_getElem (n : Nat) (v : Word) (k : Nat) (h : k < (splitBytes n v).length) :
    (splitBytes n v)[k] = v.extractLsb' (8 * k) 8 := by
  induction n generalizing v k with
  | zero => simp at h
  | succ n ih =>
    rcases k with _ | k
    · rfl
    · simp only [splitBytes, List.getElem_cons_succ]
      rw [ih]
      apply BitVec.eq_of_getLsbD_eq
      intro i hi
      simp [hi, BitVec.getLsbD_ushiftRight]
      congr 1
      omega

/-! ## Steps that take an access, reset released -/

theorem step_read {s : State} {a : BlockAddr} {n : Nat} {rest : List HostEvent} (hr : s.inReset = false)
    (hp : s.pending = .read a n :: rest) : step s = busRead a n { s with pending := rest } := by
  rw [step_of_cons hp]
  simp [serve, hr, runAccepted]

theorem step_write {s : State} {a : BlockAddr} {n : Nat} {v : Word} {rest : List HostEvent} (hr : s.inReset = false)
    (hp : s.pending = .write a n v :: rest) : step s = runAccepted (busWrite a n v { s with pending := rest }) := by
  rw [step_of_cons hp]
  simp [serve, hr]

theorem busWrite_window {a : BlockAddr} {n i : Nat} {v : Word} {s : State} (h1 : regAccess? a.toNat n = none)
    (h2 : windowAccess? s a.toNat n = some i) :
    busWrite a n v s =
      .settled (.next { s with fbuf := s.fbuf.writeRange i (splitBytes n v), reply := .done }) := by
  simp [busWrite, h1, h2]

/-- A CMD write is its command, in the state with the event taken and the write answered. -/
theorem step_cmdWrite {s : State} {w : Word} {rest : List HostEvent} (hr : s.inReset = false)
    (hp : s.pending = .write 0x00000#17 4 w :: rest) :
    step s = runCommand w { s with pending := rest, reply := .done } := by
  rw [step_write hr hp]
  rfl

end Sys2Proof.Machine
end

