-- ==== Sys2Proof/Laws/Commands.lean ====
section
/-! SUPPORT. The commands that read the buffer, run on written bytes; and the two ways a command can end. -/

namespace Sys2Proof.Machine

/-! ## Running on written bytes -/

/-- The bytes before the check bytes, once address and function code are stored over a written payload. -/
theorem readRange_header {m : Memory} {q : List Byte} (a f : Byte) (h : m.readRange 2 q.length = .ok q) :
    ((m.write 0 a).write 1 f).readRange 0 (2 + q.length) = .ok (a :: f :: q) := by
  obtain ⟨-, hq⟩ := (readRange_ok_iff _ _ _ _).1 h
  rw [readRange_ok_iff]
  refine ⟨by simp; omega, fun k hk => ?_⟩
  rw [read_write, read_write]
  rcases k with _ | _ | k
  · simp
  · simp
  · simp at hk
    have := hq k (by omega)
    rw [if_neg (by omega), if_neg (by omega), show 0 + (k + 1 + 1) = 2 + k by omega, this]
    simp

/-- A range stored after `p` makes `p ++ c`. -/
theorem read_writeRange_append {m : Memory} {p : List Byte} (c : List Byte) (h : m.readRange 0 p.length = .ok p)
    (k : Nat) (hk : k < (p ++ c).length) : (m.writeRange p.length c).read k = some (p ++ c)[k] := by
  obtain ⟨-, hg⟩ := (readRange_ok_iff _ _ _ _).1 h
  by_cases hp : k < p.length
  · have := hg k hp
    rw [Nat.zero_add] at this
    rw [read_writeRange_other _ _ _ (.inl hp), this]
    simp [hp]
  · have := read_writeRange_inside m p.length c (k := k - p.length) (by simp at hk; omega)
    rw [show p.length + (k - p.length) = k by omega] at this
    rw [this, List.getElem_append_right (by omega)]

/-- ENC_QUERY and ENC_RESP on a written payload that fits. -/
theorem encodePayload_run {s : State} {q : List Byte} (hl : q.length = s.plen.toNat)
    (hq : s.fbuf.readRange 2 q.length = .ok q) (hc : frameLength s ≤ capacity s) :
    encodePayload s = .next (setSuccess { accumulate (s.addr :: s.fc :: q) s with
      fbuf := ((s.fbuf.write 0 s.addr).write 1 s.fc).writeRange (2 + s.plen.toNat)
        (checkBytes s.mode (s.addr :: s.fc :: q))
      flen := BitVec.ofNat 16 (frameLength s) }) := by
  unfold encodePayload appendChecksum
  rw [if_neg (by omega), useBytes_of_ok (bs := s.addr :: s.fc :: q) (hl ▸ readRange_header _ _ hq)]
  simp only [accumulate]
  cases s.mode <;> rfl

/-- The three bytes ENC_EXC stores before the check bytes. -/
theorem readRange_three (m : Memory) (a f c : Byte) :
    (((m.write 0 a).write 1 f).write 2 c).readRange 0 3 = .ok [a, f, c] := by
  rw [readRange_ok_iff]
  refine ⟨rfl, fun k hk => ?_⟩
  simp at hk
  interval_cases k <;> simp [read_write]

/-- ENC_EXC, from every state. -/
theorem execEncExc_run (s : State) (code : Byte) :
    execEncExc code s = .next (setSuccess { accumulate [s.addr, s.fc ||| 0x80#8, code] s with
      fbuf := (((s.fbuf.write 0 s.addr).write 1 (s.fc ||| 0x80#8)).write 2 code).writeRange 3
        (checkBytes s.mode [s.addr, s.fc ||| 0x80#8, code])
      plen := 1#16
      flen := BitVec.ofNat 16 (3 + checkWidth s.mode) }) := by
  have h5 : 5 ≤ capacity s := s.cfg.atLeastFive
  have hw := checkWidth_le s.mode
  unfold execEncExc appendChecksum
  rw [if_neg (by omega), useBytes_of_ok (readRange_three _ _ _ _)]
  simp only [accumulate]
  cases s.mode <;> rfl

/-- DECODE of a written frame `p ++ c`, `c` its check bytes. -/
theorem execDecode_run {s : State} {p c : List Byte} (hp : 2 ≤ p.length) (hc : c.length = checkWidth s.mode)
    (hl : s.flen.toNat = p.length + c.length) (hcap : s.flen.toNat ≤ capacity s)
    (h1 : s.fbuf.readRange 0 p.length = .ok p) (h2 : s.fbuf.readRange p.length c.length = .ok c) :
    execDecode s =
      if checkBytes s.mode p = c then
        .next (setSuccess { accumulate p s with
          addr := p[0]
          fc := p[1]
          plen := BitVec.ofNat 16 (p.length - 2)
          excf := p[1].getLsbD 7
          excode := if p[1].getLsbD 7 = true then (p.drop 2).headD 0x00#8 else 0x00#8 })
      else .next (setFailure .checksumMismatch s) := by
  have r : ∀ k, (h : k < p.length) → s.fbuf.read k = some p[k] := fun k h => by
    simpa using ((readRange_ok_iff _ _ _ _).1 h1).2 k h
  unfold execDecode checkOk
  rw [if_neg (by omega), if_neg (by omega), show s.flen.toNat - checkWidth s.mode = p.length by omega,
    useBytes_of_ok h1, ← hc, useBytes_of_ok h2]
  beta_reduce
  by_cases heq : checkBytes s.mode p = c
  · rw [if_pos (show (checkBytes s.mode p == c) = true by simpa using heq), if_pos heq,
      useByte_of_read (r 0 (by omega)), useByte_of_read (r 1 (by omega))]
    unfold unpackException
    rw [useByte_of_read (r 1 (by omega))]
    simp only [← hc]
    by_cases h7 : p[1].getLsbD 7 = true ∧ s.flen.toNat - 2 - c.length ≥ 1
    · rw [if_pos h7, useByte_of_read (r 2 (by omega))]
      unfold accumulateFrame
      simp only [show s.flen.toNat - checkWidth s.mode = p.length by omega]
      rw [useBytes_of_ok h1]
      have hd : (p.drop 2).headD 0x00#8 = p[2]'(by omega) := by
        rw [List.drop_eq_getElem_cons (by omega)]
        rfl
      simp only [complete, accumulate]
      rw [hd, show s.flen.toNat - 2 - c.length = p.length - 2 by omega]
      cases hm : s.mode <;> simp [setSuccess, h7.1]
    · rw [if_neg h7]
      unfold accumulateFrame
      simp only [show s.flen.toNat - checkWidth s.mode = p.length by omega]
      rw [useBytes_of_ok h1]
      have hd : (if p[1].getLsbD 7 = true then (p.drop 2).headD 0x00#8 else 0x00#8) = 0x00#8 := by
        split
        · rename_i h
          have : p.length = 2 := by
            by_contra hne
            exact h7 ⟨h, by omega⟩
          rw [List.drop_of_length_le (by omega)]
          rfl
        · rfl
      simp only [complete, accumulate]
      rw [hd, show s.flen.toNat - 2 - c.length = p.length - 2 by omega]
      cases hm : s.mode <;> simp [setSuccess]
  · rw [if_neg (show ¬(checkBytes s.mode p == c) = true by simpa using heq), if_neg heq]
    rfl

/-! ## How a command ends -/

/-- A command that answers a next state has failed, with STATUS all that changed, or has completed: then ERR and ERRCODE
are clear, ERRACC is kept but for CLR_ERR, and only DECODE wrote EXCF and EXCODE. -/
theorem exec_ends {i : Instr} {s t : State} (h : exec i s = .next t) :
    (∃ e, e ≠ .illegalCommand ∧ t = setFailure e s) ∨
      (t.err = false ∧ t.errCode = 0#4 ∧ (i ≠ .clrErr → t.errAcc = s.errAcc) ∧
        (i ≠ .decode → t.excf = s.excf ∧ t.excode = s.excode)) := by
  cases i with
  | crcInit | crcByte | lrcInit | lrcByte | clrErr => cases h; right; simp
  | crcBuf | lrcBuf =>
    rcases useBuffer_next h with ⟨-, rfl⟩ | ⟨-, bs, -, h⟩
    · exact .inl ⟨_, by simp, rfl⟩
    · cases h
      right
      simp
  | encQuery | encResp =>
    rcases encodePayload_next h with ⟨-, rfl⟩ | ⟨-, bs, -, rfl⟩
    · exact .inl ⟨_, by simp, rfl⟩
    · right
      simp
  | encExc code =>
    obtain ⟨bs, -, rfl⟩ := execEncExc_next h
    right
    simp
  | decode =>
    rcases execDecode_next h with ⟨-, rfl⟩ | ⟨-, -, rfl⟩ | ⟨-, -, bs, cs, -, -, ⟨-, rfl⟩ | ⟨-, a, f, e, -, -, -, rfl⟩⟩
    · exact .inl ⟨_, by simp, rfl⟩
    · exact .inl ⟨_, by simp, rfl⟩
    · exact .inl ⟨_, by simp, rfl⟩
    · right
      simp

end Sys2Proof.Machine
end

