-- ==== Sys2Proof/Laws/PerInstr.lean ====
section
/-! SUPPORT. Statements made per command. -/

namespace Sys2Proof.Laws.TableRow

/-- The command's fields pass the decoder's checks, and its word is selected by a row of the opcode table that makes the
command from the command's own DATA byte (30_encoding.md R47, R49). -/
def Statement (i : Instr) : Prop :=
  i.wellFormed = true ∧ ∃ r ∈ opcodeTable, r.selects (encodeCommand i) = true ∧ r.make i.data = i

/-- The mask of the rows whose commands take a byte clears DATA and keeps the rest. -/
theorem byteMask_joinCommand (opc data : Byte) :
    joinCommand ⟨opc, data, 0x0000#16⟩ &&& 0xFFFF00FF#32 = joinCommand ⟨opc, 0x00#8, 0x0000#16⟩ := by
  have h : opc &&& 0xFF#8 = opc := by rw [show (0xFF#8) = BitVec.allOnes 8 from rfl, BitVec.and_allOnes]
  unfold joinCommand
  rw [show (0xFFFF00FF#32) = 0xFFFF#16 ++ 0x00#8 ++ 0xFF#8 from rfl, BitVec.and_append, BitVec.and_append, h]
  simp

theorem crcInit : Statement .crcInit := ⟨by decide, opcodeTable[0], List.getElem_mem _, by decide, rfl⟩

theorem crcByte (data : Byte) : Statement (.crcByte data) :=
  ⟨rfl, opcodeTable[1], List.getElem_mem _, beq_iff_eq.mpr (byteMask_joinCommand 0x02#8 data), rfl⟩

theorem crcBuf : Statement .crcBuf := ⟨by decide, opcodeTable[2], List.getElem_mem _, by decide, rfl⟩

theorem lrcInit : Statement .lrcInit := ⟨by decide, opcodeTable[3], List.getElem_mem _, by decide, rfl⟩

theorem lrcByte (data : Byte) : Statement (.lrcByte data) :=
  ⟨rfl, opcodeTable[4], List.getElem_mem _, beq_iff_eq.mpr (byteMask_joinCommand 0x05#8 data), rfl⟩

theorem lrcBuf : Statement .lrcBuf := ⟨by decide, opcodeTable[5], List.getElem_mem _, by decide, rfl⟩

theorem encQuery : Statement .encQuery := ⟨by decide, opcodeTable[6], List.getElem_mem _, by decide, rfl⟩

theorem encResp : Statement .encResp := ⟨by decide, opcodeTable[7], List.getElem_mem _, by decide, rfl⟩

theorem encExc (code : Byte) : Statement (.encExc code) :=
  ⟨rfl, opcodeTable[8], List.getElem_mem _, beq_iff_eq.mpr (byteMask_joinCommand 0x12#8 code), rfl⟩

theorem decode : Statement .decode := ⟨by decide, opcodeTable[9], List.getElem_mem _, by decide, rfl⟩

theorem clrErr : Statement .clrErr := ⟨by decide, opcodeTable[10], List.getElem_mem _, by decide, rfl⟩

end Sys2Proof.Laws.TableRow
end

