-- ==== Sys2Proof/Tests/Slice0.lean ====
section
/-! SUPPORT. The model's own tests. Expected values are those of 95_test_vectors.md (V-…) and of the encodings of
30_encoding.md R47 and R49; the second half holds one witness per obligation that has hypotheses, clause by clause. -/

namespace Sys2Proof.Tests

open Sys2Proof.Machine Sys2Proof.Claims

/-! ## Small states -/

/-- `bs` written at FBUF[0..), FLEN their number. -/
def loaded (m : Framing) (bs : List Byte) : State :=
  { State.reset with mode := m, flen := BitVec.ofNat 16 bs.length, fbuf := Memory.writeRange [] 0 bs }

/-- ADDR, FC, PLEN and the payload `q` written. -/
def prepared (m : Framing) (a f : Byte) (q : List Byte) : State :=
  { State.reset with
    mode := m
    addr := a
    fc := f
    plen := BitVec.ofNat 16 q.length
    fbuf := Memory.writeRange [] 2 q }

/-- The same in the smallest instance, CAP = 5. -/
def smallest (s : State) : State := { s with cfg := ⟨5, by decide, by decide⟩ }

/-- The host does `e` next, then `rest`. -/
def hosting (e : HostEvent) (rest : List HostEvent) (s : State) : State := { s with pending := e :: rest }

/-- The host writes `w` to CMD next. -/
def commanding (w : Word) (s : State) : State := hosting (.write 0x00000#17 4 w) [] s

/-- The bytes FBUF[0..FLEN), or nothing. -/
def frameOf (s : State) : Option (List Byte) := (hostFrameToSend s).toOption

/-- A part of the next state of a step. -/
def after {α : Type} (s : State) (f : State → α) : Option α := (nextOf (step s)).map f

/-- The query frame of 95_test_vectors.md T1. -/
def query : List Byte := [0x11#8, 0x06#8, 0x00#8, 0x01#8, 0x00#8, 0xFF#8, 0x9A#8, 0xDA#8]

/-- The ASCII frame of V-E2. -/
def reply : List Byte := [0x11#8, 0x03#8, 0x00#8, 0x6B#8, 0x00#8, 0x03#8, 0x7E#8]

/-- The exception frame of V-E10. -/
def exception : List Byte := [0x11#8, 0x83#8, 0x02#8, 0xC1#8, 0x34#8]

/-! ## Well-formedness: each check refuses an ill-formed word -/

theorem test_rsv_check_refuses :
    (CommandWord.mk 0x01#8 0x00#8 0x0001#16).rsvIsZero = false ∧
      (CommandWord.mk 0x01#8 0x00#8 0x0001#16).wellFormed = false := by decide

theorem test_opc_check_refuses :
    (CommandWord.mk 0x07#8 0x00#8 0x0000#16).opcIsAssigned = false ∧
      (CommandWord.mk 0x07#8 0x00#8 0x0000#16).wellFormed = false := by decide

theorem test_data_check_refuses :
    (CommandWord.mk 0x01#8 0x01#8 0x0000#16).dataIsAllowed = false ∧
      (CommandWord.mk 0x01#8 0x01#8 0x0000#16).wellFormed = false := by decide

/-! ## Decoding: words written out from the fields RSV, DATA, OPC of R47 and the opcodes of R49 -/

theorem test_checksum_words_decode :
    decodeCommand 0b00000000000000000000000000000001#32 = .ok .crcInit ∧
    decodeCommand 0b00000000000000000001000100000010#32 = .ok (.crcByte 0x11#8) ∧
    decodeCommand 0b00000000000000000000000000000011#32 = .ok .crcBuf ∧
    decodeCommand 0b00000000000000000000000000000100#32 = .ok .lrcInit ∧
    decodeCommand 0b00000000000000001000000000000101#32 = .ok (.lrcByte 0x80#8) ∧
    decodeCommand 0b00000000000000000000000000000110#32 = .ok .lrcBuf := by decide

theorem test_codec_words_decode :
    decodeCommand 0b00000000000000000000000000010000#32 = .ok .encQuery ∧
    decodeCommand 0b00000000000000000000000000010001#32 = .ok .encResp ∧
    decodeCommand 0b00000000000000000000001000010010#32 = .ok (.encExc 0x02#8) ∧
    decodeCommand 0b00000000000000000000000000100000#32 = .ok .decode := by decide

theorem test_control_words_decode :
    decodeCommand 0b00000000000000000000000000110000#32 = .ok .clrErr ∧
    decodeCommand 0b00000000000000000000000000000000#32 = .error (.reservedOpcode 0x00#8) ∧
    decodeCommand 0b00000000000000000000000100110000#32 = .error (.dataNotZero 0x30#8 0x01#8) ∧
    decodeCommand 0b10000000000000000000000000000010#32 = .error (.reservedBits 0x8000#16) := by decide

/-- 30_encoding.md R54: the words of V-C2 and V-E10 from their commands. -/
theorem test_encode_words :
    encodeCommand (.crcByte 0x11#8) = 0x00001102#32 ∧ encodeCommand (.encExc 0x02#8) = 0x00000212#32 ∧
      encodeCommand .decode = 0x00000020#32 := by decide

theorem test_table_words :
    decodeTableWord 32 0x00000010 = some .encQuery ∧ decodeTableWord 32 0x00000007 = none ∧
      decodeTableWord 40 0x00000010 = none := by decide

/-- A placed word is what the next step runs, V-C2. -/
theorem test_placed_word_runs : after (State.reset.withFetchWord 32 0x1102) (fun t => t.crc) = some 0x4C7F#16 := by
  decide

/-! ## Commands, one step each -/

/-- V-C1 with V-K6: the error code goes, ERRACC stays. -/
theorem test_crcInit :
    after (commanding 0x00000001#32 { State.reset with crc := 0x1234#16, err := true, errAcc := true, errCode := 4#4 })
      (fun t => (t.crc, statusWord t)) = some (0xFFFF#16, 0x00000002#32) := by decide

/-- V-C2 and V-C4. -/
theorem test_crcByte :
    after (commanding 0x00001102#32 State.reset) (fun t => (t.crc, statusWord t)) = some (0x4C7F#16, 0x00000000#32) ∧
    after (commanding 0x0000FF02#32 { State.reset with crc := 0x00FF#16 }) (fun t => t.crc) = some 0x0000#16 := by
  decide

/-- V-C5. -/
theorem test_crcBuf :
    after (commanding 0x00000003#32 (loaded .rtu [0x11#8, 0x06#8, 0x00#8, 0x01#8, 0x00#8, 0xFF#8]))
      (fun t => (t.crc, t.sum, statusWord t)) = some (0xDA9A#16, 0x00#8, 0x00000000#32) := by decide +kernel

/-- V-C12. -/
theorem test_crcBuf_unwritten :
    faultOf (step (commanding 0x00000003#32 { State.reset with flen := 2#16 })) = some (.unwrittenBuffer 0) := by
  decide

/-- 40_checksum.md R66, the example, and V-C13. -/
theorem test_lrcInit :
    after (commanding 0x00000004#32 { State.reset with sum := 0x5A#8 }) (fun t => (t.sum, readReg .lrc t)) =
      some (0x00#8, 0x00000000#32) ∧
    after (commanding 0x00000104#32 { State.reset with sum := 0x5A#8 }) (fun t => (t.sum, statusWord t)) =
      some (0x5A#8, 0x00000043#32) := by decide

/-- V-C8 and V-C9. -/
theorem test_lrcByte :
    after (commanding 0x00001105#32 State.reset) (fun t => (t.sum, readReg .lrc t)) = some (0x11#8, 0x000011EF#32) ∧
    after (commanding 0x00000105#32 { State.reset with sum := 0xFF#8 }) (fun t => (t.sum, readReg .lrc t)) =
      some (0x00#8, 0x00000000#32) := by decide

/-- V-C10. -/
theorem test_lrcBuf :
    after (commanding 0x00000006#32 (loaded .rtu [0x11#8, 0x06#8, 0x00#8, 0x01#8, 0x00#8, 0xFF#8]))
      (fun t => (readReg .lrc t, t.crc)) = some (0x000017E9#32, 0xFFFF#16) := by decide

/-- V-E1. -/
theorem test_encQuery :
    after (commanding 0x00000010#32 (prepared .rtu 0x11#8 0x06#8 [0x00#8, 0x01#8, 0x00#8, 0xFF#8]))
      (fun t => (frameOf t, t.flen, t.crc, statusWord t)) = some (some query, 8#16, 0xDA9A#16, 0x00000000#32) := by
  decide +kernel

/-- V-E15: the payload's second byte was never written. -/
theorem test_encQuery_unwritten :
    faultOf (step (commanding 0x00000010#32 { prepared .rtu 0x11#8 0x06#8 [0x00#8] with plen := 2#16 })) =
      some (.unwrittenBuffer 3) := by decide

/-- V-E2. -/
theorem test_encResp :
    after (commanding 0x00000011#32 (prepared .ascii 0x11#8 0x03#8 [0x00#8, 0x6B#8, 0x00#8, 0x03#8]))
      (fun t => (frameOf t, t.flen, t.sum, t.crc)) = some (some reply, 7#16, 0x82#8, 0xFFFF#16) := by decide

/-- V-E8: one byte too many. -/
theorem test_encResp_too_large :
    after (commanding 0x00000011#32 { prepared .ascii 0x01#8 0x10#8 [] with plen := 254#16 })
      (fun t => (t.fbuf, t.flen, statusWord t)) = some ([], 0#16, 0x00000033#32) := by decide

/-- V-E10. -/
theorem test_encExc :
    after (commanding 0x00000212#32 (prepared .rtu 0x11#8 0x03#8 []))
      (fun t => (frameOf t, t.plen, t.flen, t.fc, t.crc)) =
      some (some exception, 1#16, 5#16, 0x03#8, 0x34C1#16) := by decide +kernel

/-- V-E11: bit 7 already set. -/
theorem test_encExc_ascii :
    after (commanding 0x00000212#32 (prepared .ascii 0x11#8 0x83#8 [])) (fun t => (frameOf t, t.fc, t.sum)) =
      some (some [0x11#8, 0x83#8, 0x02#8, 0x6A#8], 0x83#8, 0x96#8) := by decide

/-- V-D1 and V-D9. -/
theorem test_decode :
    after (commanding 0x00000020#32 (loaded .rtu query)) (fun t => (t.addr, t.fc, t.plen, t.excode, t.crc, statusWord t)) =
      some (0x11#8, 0x06#8, 4#16, 0x00#8, 0xDA9A#16, 0x00000000#32) ∧
    after (commanding 0x00000020#32 (loaded .rtu exception)) (fun t => (t.fc, t.plen, t.excode, statusWord t)) =
      some (0x83#8, 1#16, 0x02#8, 0x00000004#32) := by decide +kernel

/-- V-D3 (check bytes swapped), V-D4, V-D5 and V-D11. -/
theorem test_decode_errors :
    after (commanding 0x00000020#32 (loaded .rtu [0x11#8, 0x06#8, 0x00#8, 0x01#8, 0x00#8, 0xFF#8, 0xDA#8, 0x9A#8]))
      statusWord = some 0x00000013#32 ∧
    after (commanding 0x00000020#32 { State.reset with flen := 3#16 }) statusWord = some 0x00000023#32 ∧
    after (commanding 0x00000020#32 { State.reset with mode := .ascii, flen := 2#16 }) statusWord =
      some 0x00000023#32 ∧
    after (commanding 0x00000020#32 { State.reset with flen := 257#16 }) statusWord = some 0x00000033#32 := by
  decide +kernel

/-- V-K5 and V-K7. -/
theorem test_clrErr :
    after (commanding 0x00000030#32 { State.reset with err := true, errAcc := true, excf := true, errCode := 1#4 })
      statusWord = some 0x00000004#32 ∧
    after (commanding 0x00000130#32 { State.reset with errAcc := true }) statusWord = some 0x00000043#32 := by
  decide

/-! ## The host port -/

/-- V-B1, V-B2, V-B3, V-B4, V-B6, V-B7: refused accesses. -/
theorem test_refused_accesses :
    faultOf (step (hosting (.read 0x00000#17 4) [] State.reset)) = some (.busError 0x00000#17) ∧
    faultOf (step (hosting (.read 0x00006#17 2) [] State.reset)) = some (.busError 0x00006#17) ∧
    faultOf (step (hosting (.write 0x0000C#17 4 0#32) [] State.reset)) = some (.busError 0x0000C#17) ∧
    faultOf (step (hosting (.read 0x0002C#17 4) [] State.reset)) = some (.busError 0x0002C#17) ∧
    faultOf (step (hosting (.read 0x10002#17 4) [] State.reset)) = some (.busError 0x10002#17) ∧
    faultOf (step (hosting (.write 0x10100#17 1 0#32) [] State.reset)) = some (.busError 0x10100#17) := by
  decide

/-- V-B5: a word write, its bytes in FBUF. -/
theorem test_window_write :
    after (hosting (.write 0x10000#17 4 0x01000611#32) [] State.reset) (fun t => t.fbuf) =
      some [(0, 0x11#8), (1, 0x06#8), (2, 0x00#8), (3, 0x01#8)] := by decide

/-- V-B8: the last word of the buffer (and P2's packing of its second word). -/
theorem test_window_read :
    after (hosting (.read 0x100FC#17 4) [] { State.reset with fbuf := Memory.writeRange [] 252 [0x00#8, 0xFF#8, 0x9A#8, 0xDA#8] })
      (fun t => t.reply) = some (.data 0xDA9AFF00#32) := by decide

/-- V-B10: the undefined bits are ignored. -/
theorem test_register_write :
    after (hosting (.write 0x00014#17 4 0xFFFFFF11#32) [] State.reset) (fun t => readReg .addr t) =
      some 0x00000011#32 := by decide

/-- V-B9 and V-B11. -/
theorem test_register_reads :
    after (hosting (.read 0x00028#17 4) [] State.reset) (fun t => t.reply) = some (.data 0x00000100#32) ∧
    after (hosting (.read 0x0000C#17 4) [] State.reset) (fun t => t.reply) = some (.data 0x0000FFFF#32) := by
  decide

/-- 30_encoding.md R54: an immediate out of its range does not assemble; P1's second line does. -/
theorem test_assembler :
    assemble (.crcByte 256) = none ∧ assemble (.wr .mode (2 ^ 32)) = none ∧
      assemble (.crcByte 0x11) = some [.write 0x00000#17 4 0x00001102#32] := by decide

/-! ## Witnesses: for each obligation with hypotheses, states and operands that meet them, clause by clause -/

/-- An outcome that is a next state with `P`, from a check that computes. -/
theorem next_of_any {o : Out} (P : State → Prop) [DecidablePred P]
    (h : (nextOf o).any (fun t => decide (P t)) = true) : ∃ t, o = .next t ∧ P t := by
  cases o with
  | next t => exact ⟨t, rfl, by simpa [nextOf] using h⟩
  | fault f => cases h
  | refused r => cases h

theorem bytesAt_of_readRange {s : State} {i : Nat} {bs : List Byte} (h : s.fbuf.readRange i bs.length = .ok bs) :
    BytesAt s i bs := ((readRange_ok_iff _ _ _ _).1 h).2

theorem firstUnwritten_of_readRange {s : State} {i n j : Nat} (h : s.fbuf.readRange i n = .error j) :
    FirstUnwritten s i n j := readRange_error h

theorem witness_EncodeThenDecodeGivesTheCommand :
    (Instr.encExc 0xFF#8).wellFormed = true ∧ (Instr.crcInit).wellFormed = true := by decide

theorem witness_DecodedWordIsTheCommandsOwnWord :
    decodeCommand 0x00000212#32 = .ok (.encExc 0x02#8) ∧ decodeCommand 0x00000001#32 = .ok .crcInit := by decide

theorem witness_OpcodeMapSelectsAtMostOneRowAndDecodes :
    (∃ r ∈ opcodeTable, r.selects 0x0000FF02#32 = true) ∧ (∀ r ∈ opcodeTable, r.selects 0x00000007#32 = false) := by
  constructor
  · exact ⟨⟨"CRC_BYTE", 0x00000002#32, 0xFFFF00FF#32, fun b => .crcByte b⟩, by simp [opcodeTable], by decide⟩
  · decide

/-- Both ends of each reserved range, RSV ≠ 0 at either end, DATA ≠ 0; and a state with STATUS clear. -/
theorem witness_IllegalWordsChangeOnlyStatus :
    Takes (commanding 0x00000007#32 State.reset) (.write 0x00000#17 4 0x00000007#32) [] ∧
    (∀ opc ∈ [0x00, 0x07, 0x0F, 0x13, 0x1F, 0x21, 0x2F, 0x31, 0xFF], ReservedOpc opc) ∧
    (0x00010001#32).extractLsb' 16 16 ≠ 0#16 ∧ (0x80000002#32).extractLsb' 16 16 ≠ 0#16 ∧
    ((0x00000101#32).extractLsb' 0 8 ∈ [0x01#8, 0x03#8, 0x04#8, 0x06#8, 0x10#8, 0x11#8, 0x20#8, 0x30#8] ∧
      (0x00000101#32).extractLsb' 8 8 ≠ 0#8) ∧
    (∀ r ∈ opcodeTable, r.selects 0x00000000#32 = false) ∧ readReg .status State.reset = 0x00000000#32 := by
  refine ⟨⟨rfl, rfl⟩, ?_, by decide, by decide, by decide, by decide, by decide⟩
  unfold ReservedOpc
  decide

theorem witness_StepRunsTheDecodedCommand :
    Takes (commanding 0x00001102#32 State.reset) (.write 0x00000#17 4 0x00001102#32) [] ∧
      decodeCommand 0x00001102#32 = .ok (.crcByte 0x11#8) ∧ (Instr.crcByte 0x11#8).wellFormed = true :=
  ⟨⟨rfl, rfl⟩, by decide, by decide⟩

/-- `IllegalWithOpc`, which the statement of each command names: RSV ≠ 0, and DATA ≠ 0 where the command takes no byte. -/
theorem witness_IllegalWithOpc :
    (∀ opc ∈ [0x01#8, 0x02#8, 0x03#8, 0x04#8, 0x05#8, 0x06#8, 0x10#8, 0x11#8, 0x12#8, 0x20#8, 0x30#8],
      ∃ w : Word, w.extractLsb' 0 8 = opc ∧ w.extractLsb' 16 16 ≠ 0#16) ∧
    (∀ opc ∈ [0x01#8, 0x03#8, 0x04#8, 0x06#8, 0x10#8, 0x11#8, 0x20#8, 0x30#8],
      ∃ w : Word, w.extractLsb' 0 8 = opc ∧ w.extractLsb' 8 8 ≠ 0#8) := by
  constructor
  · intro opc h
    exact ⟨0x0001#16 ++ 0x00#8 ++ opc, by fin_cases h <;> decide, by fin_cases h <;> decide⟩
  · intro opc h
    exact ⟨0x0000#16 ++ 0xFF#8 ++ opc, by fin_cases h <;> decide, by fin_cases h <;> decide⟩

/-- Two states with different histories, and an empty and a full range of the buffer. -/
theorem witness_ChecksumsDependOnlyOnTheirBytes :
    (∃ t t', runCommands [.crcInit, .crcByte 0x11#8] State.reset = .next t ∧
      runCommands [.crcInit, .crcByte 0x11#8] (loaded .ascii query) = .next t') ∧
    (∃ t t', runCommands [.lrcInit, .lrcByte 0x11#8] State.reset = .next t ∧
      runCommands [.lrcInit, .lrcByte 0x11#8] (loaded .ascii query) = .next t') ∧
    (∃ t, exec .lrcBuf (loaded .rtu query) = .next t ∧ t.err = false) ∧
    (∃ t, exec .crcBuf (loaded .rtu query) = .next t ∧ t.err = false) ∧
    (Takes (hosting (.write 0x00014#17 4 0x05#32) [] State.reset) (.write 0x00014#17 4 0x05#32) [] ∧
      ∃ t, step (hosting (.write 0x00014#17 4 0x05#32) [] State.reset) = .next t ∧ t.addr = 0x05#8) ∧
    (∃ t, exec .crcBuf State.reset = .next t ∧ t.err = false) ∧
    (∃ t, exec .lrcBuf State.reset = .next t ∧ t.err = false) :=
  ⟨⟨_, _, rfl, rfl⟩, ⟨_, _, rfl, rfl⟩, next_of_any _ (by decide), next_of_any _ (by decide),
    ⟨⟨rfl, rfl⟩, next_of_any _ (by decide)⟩, next_of_any _ (by decide),
    next_of_any _ (by decide)⟩

/-- The whole buffer of the smallest instance, and the empty range. -/
theorem witness_StreamingAndBufferFormsAgree :
    ((smallest (loaded .rtu exception)).flen.toNat = exception.length ∧
      exception.length ≤ capacity (smallest (loaded .rtu exception)) ∧
      BytesAt (smallest (loaded .rtu exception)) 0 exception) ∧
    (State.reset.flen.toNat = ([] : List Byte).length ∧ BytesAt State.reset 0 []) :=
  ⟨⟨by decide, by decide, bytesAt_of_readRange (by decide)⟩, by decide, bytesAt_of_readRange (by decide)⟩

theorem witness_CrcInitLoadsTheInitialValue : ∃ t, exec .crcInit State.reset = .next t := ⟨_, rfl⟩

/-- FLEN = CAP, FLEN one above it, and an unwritten byte behind a written one. -/
theorem witness_CrcBufComputesOverTheFirstFlenBytes :
    ((smallest (loaded .rtu exception)).flen.toNat = exception.length ∧
      exception.length ≤ capacity (smallest (loaded .rtu exception)) ∧
      BytesAt (smallest (loaded .rtu exception)) 0 exception) ∧
    capacity { State.reset with flen := 257#16 } < ({ State.reset with flen := 257#16 } : State).flen.toNat ∧
    (({ loaded .rtu [0x11#8] with flen := 2#16 } : State).flen.toNat ≤ capacity { loaded .rtu [0x11#8] with flen := 2#16 } ∧
      1 < ({ loaded .rtu [0x11#8] with flen := 2#16 } : State).flen.toNat ∧
      ({ loaded .rtu [0x11#8] with flen := 2#16 } : State).fbuf.read 1 = none) :=
  ⟨⟨by decide, by decide, bytesAt_of_readRange (by decide)⟩, by decide, by decide⟩

theorem witness_LrcInitClearsTheSum : ∃ t, exec .lrcInit { State.reset with sum := 0x5A#8 } = .next t := ⟨_, rfl⟩

/-- Every byte range ending at CAP: all written, FLEN one above it, and its last byte unwritten. -/
theorem witness_LrcBufSumsTheFirstFlenBytes :
    ((smallest (loaded .ascii exception)).flen.toNat = exception.length ∧
      exception.length ≤ capacity (smallest (loaded .ascii exception)) ∧
      BytesAt (smallest (loaded .ascii exception)) 0 exception) ∧
    capacity (smallest { State.reset with flen := 6#16 }) < (smallest { State.reset with flen := 6#16 }).flen.toNat ∧
    ((smallest { State.reset with flen := 5#16 }).flen.toNat ≤ capacity (smallest { State.reset with flen := 5#16 }) ∧
      4 < (smallest { State.reset with flen := 5#16 }).flen.toNat ∧
      (smallest { State.reset with flen := 5#16 }).fbuf.read 4 = none) :=
  ⟨⟨by decide, by decide, bytesAt_of_readRange (by decide)⟩, by decide, by decide⟩

/-- `EncodesFrame`, which the statements of ENC_QUERY and ENC_RESP name: the largest frame of each mode in the smallest
instance, the empty payload, one payload byte too many, the first and the last payload byte unwritten. -/
theorem witness_EncodesFrame :
    (([0xAA#8] : List Byte).length = (smallest (prepared .rtu 1#8 3#8 [0xAA#8])).plen.toNat ∧
      BytesAt (smallest (prepared .rtu 1#8 3#8 [0xAA#8])) 2 [0xAA#8] ∧
      2 + (smallest (prepared .rtu 1#8 3#8 [0xAA#8])).plen.toNat + 2 ≤ capacity (smallest (prepared .rtu 1#8 3#8 [0xAA#8]))) ∧
    (([] : List Byte).length = State.reset.plen.toNat ∧ BytesAt State.reset 2 [] ∧ State.reset.mode = .rtu ∧
      2 + State.reset.plen.toNat + 2 ≤ capacity State.reset) ∧
    (([0xAA#8, 0xBB#8] : List Byte).length = (smallest (prepared .ascii 1#8 3#8 [0xAA#8, 0xBB#8])).plen.toNat ∧
      BytesAt (smallest (prepared .ascii 1#8 3#8 [0xAA#8, 0xBB#8])) 2 [0xAA#8, 0xBB#8] ∧
      2 + (smallest (prepared .ascii 1#8 3#8 [0xAA#8, 0xBB#8])).plen.toNat + 1 ≤
        capacity (smallest (prepared .ascii 1#8 3#8 [0xAA#8, 0xBB#8]))) ∧
    capacity { State.reset with plen := 253#16 } < 2 + ({ State.reset with plen := 253#16 } : State).plen.toNat + checkWidth .rtu ∧
    (2 + ({ State.reset with plen := 252#16 } : State).plen.toNat + checkWidth .rtu ≤ capacity State.reset ∧
      2 < 2 + ({ State.reset with plen := 252#16 } : State).plen.toNat ∧
      253 < 2 + ({ State.reset with plen := 252#16 } : State).plen.toNat ∧ State.reset.fbuf.read 2 = none ∧
      State.reset.fbuf.read 253 = none) :=
  ⟨⟨by decide, bytesAt_of_readRange (by decide), by decide⟩,
    ⟨by decide, bytesAt_of_readRange (by decide), rfl, by decide⟩,
    ⟨by decide, bytesAt_of_readRange (by decide), by decide⟩, by decide, by decide⟩

theorem witness_EncExcBuildsTheExceptionFrame :
    State.reset.mode = .rtu ∧ (smallest (prepared .ascii 0x11#8 0x83#8 [])).mode = .ascii := ⟨rfl, rfl⟩

/-- One state for each of DECODE's outcomes: accepted frames (a payload, none, an exception), wrong check bytes of each mode,
FLEN one above CAP and one below the shortest frame of each mode, and an unwritten last byte. -/
theorem witness_DecodeValidatesAndUnpacks :
    ((loaded .rtu query).flen.toNat = 2 + 4 + 2 ∧ (loaded .rtu query).flen.toNat ≤ capacity (loaded .rtu query) ∧
      BytesAt (loaded .rtu query) 0 ([0x11#8, 0x06#8] ++ [0x00#8, 0x01#8, 0x00#8, 0xFF#8] ++
        [(crc16 ([0x11#8, 0x06#8] ++ [0x00#8, 0x01#8, 0x00#8, 0xFF#8])).extractLsb' 0 8,
          (crc16 ([0x11#8, 0x06#8] ++ [0x00#8, 0x01#8, 0x00#8, 0xFF#8])).extractLsb' 8 8])) ∧
    BytesAt (loaded .rtu [0x01#8, 0x83#8, 0x41#8, 0x81#8]) 0 ([0x01#8, 0x83#8] ++ [] ++
      [(crc16 ([0x01#8, 0x83#8] ++ [])).extractLsb' 0 8, (crc16 ([0x01#8, 0x83#8] ++ [])).extractLsb' 8 8]) ∧
    ((loaded .ascii reply).flen.toNat = 2 + 4 + 1 ∧
      BytesAt (loaded .ascii reply) 0 ([0x11#8, 0x03#8] ++ [0x00#8, 0x6B#8, 0x00#8, 0x03#8] ++
        [lrc8 ([0x11#8, 0x03#8] ++ [0x00#8, 0x6B#8, 0x00#8, 0x03#8])])) ∧
    (BytesAt (loaded .rtu [0x01#8, 0x03#8, 0x21#8, 0x40#8]) 0 ([0x01#8, 0x03#8] ++ [0x21#8, 0x40#8]) ∧
      crc16 [0x01#8, 0x03#8] ≠ 0x40#8 ++ 0x21#8) ∧
    (BytesAt (loaded .ascii [0x01#8, 0x03#8, 0xFD#8]) 0 ([0x01#8, 0x03#8] ++ [0xFD#8]) ∧
      lrc8 [0x01#8, 0x03#8] ≠ 0xFD#8) ∧
    capacity { State.reset with flen := 257#16 } < ({ State.reset with flen := 257#16 } : State).flen.toNat ∧
    ({ State.reset with flen := 3#16 } : State).flen.toNat < 2 + checkWidth .rtu ∧
    ({ State.reset with mode := .ascii, flen := 2#16 } : State).flen.toNat < 2 + checkWidth .ascii ∧
    (2 + checkWidth .rtu ≤ ({ loaded .rtu [1#8, 3#8, 0#8] with flen := 4#16 } : State).flen.toNat ∧
      3 < ({ loaded .rtu [1#8, 3#8, 0#8] with flen := 4#16 } : State).flen.toNat ∧
      (loaded .rtu [1#8, 3#8, 0#8]).fbuf.read 3 = none) :=
  ⟨⟨by decide, by decide, bytesAt_of_readRange (by decide +kernel)⟩, bytesAt_of_readRange (by decide +kernel),
    ⟨by decide, bytesAt_of_readRange (by decide)⟩,
    ⟨bytesAt_of_readRange (by decide), by decide +kernel⟩, ⟨bytesAt_of_readRange (by decide), by decide⟩,
    by decide, by decide, by decide, by decide⟩

/-- An accepted exception frame; a flagged frame with no payload and one with two bytes; a command word that changes EXCF, a step
with it, and a reset event that changes EXCODE. -/
theorem witness_DecodeReportsTheExceptionForm :
    (∃ t, exec .decode (loaded .rtu exception) = .next t ∧ t.err = false ∧ t.excf = true) ∧
    (BytesAt (loaded .rtu [0x01#8, 0x83#8, 0x41#8, 0x81#8]) 0
      ([0x01#8, 0x83#8] ++ [] ++ checkBytes .rtu ([0x01#8, 0x83#8] ++ [])) ∧ (0x83#8).getLsbD 7 = true) ∧
    BytesAt (loaded .ascii [0x01#8, 0x83#8, 0x02#8, 0x03#8, 0x77#8]) 0
      ([0x01#8, 0x83#8] ++ [0x02#8, 0x03#8] ++ checkBytes .ascii ([0x01#8, 0x83#8] ++ [0x02#8, 0x03#8])) ∧
    (∃ t, runCommand 0x00000020#32 (loaded .rtu exception) = .next t ∧ t.excf ≠ (loaded .rtu exception).excf) ∧
    (∃ t, step (commanding 0x00000020#32 (loaded .ascii [0x01#8, 0x83#8, 0x7C#8])) = .next t ∧ t.excf ≠ false) ∧
    (∃ t, step (hosting .assertReset [] { State.reset with excode := 2#8 }) = .next t ∧ t.excode ≠ 2#8) :=
  ⟨next_of_any _ (by decide +kernel), ⟨bytesAt_of_readRange (by decide +kernel), by decide⟩,
    bytesAt_of_readRange (by decide), next_of_any _ (by decide +kernel), next_of_any _ (by decide),
    next_of_any _ (by decide)⟩

/-- ERRACC cleared by CLR_ERR and by the reset input; set by a failing command; kept by a command that succeeds. -/
theorem witness_ErrAccIsStickyUntilClrErrOrReset :
    (∃ t, step (commanding 0x00000030#32 { State.reset with errAcc := true }) = .next t ∧ t.errAcc = false) ∧
    (∃ t, step (hosting .assertReset [] { State.reset with errAcc := true }) = .next t ∧ t.errAcc = false) ∧
    (∃ t, runCommand 0x00000007#32 State.reset = .next t ∧ t.err = true) ∧
    ((∃ t, runCommand 0x00000001#32 { State.reset with errAcc := true } = .next t ∧ t.err = false) ∧
      decodeCommand 0x00000001#32 ≠ .ok .clrErr) :=
  ⟨next_of_any _ (by decide), next_of_any _ (by decide), next_of_any _ (by decide),
    next_of_any _ (by decide), by decide⟩

theorem witness_ClrErrClearsTheErrorStatus :
    ∃ t, step (commanding 0x00000030#32 { State.reset with errAcc := true }) = .next t ∧
      ({ State.reset with errAcc := true } : State).errAcc = true ∧ t.errAcc = false :=
  next_of_any (fun t => _ ∧ t.errAcc = false) (by decide)

/-- A command that completes, one that fails, and one that changes EXCF. -/
theorem witness_CommandsEndInCompleteOrRaise :
    (∃ t, runCommand 0x00000003#32 (loaded .rtu query) = .next t ∧ t.err = false) ∧
    (∃ t, runCommand 0x00000003#32 { State.reset with flen := 257#16 } = .next t ∧ t.err = true) ∧
    (∃ t, runCommand 0x00000020#32 (loaded .rtu exception) = .next t ∧ t.excf ≠ (loaded .rtu exception).excf) :=
  ⟨next_of_any _ (by decide), next_of_any _ (by decide), next_of_any _ (by decide +kernel)⟩

/-- An illegal word, and each of DECODE's three errors. -/
theorem witness_ErrorPriorityGivesOneCode :
    decodeCommand 0x80000020#32 = .error (.reservedBits 0x8000#16) ∧
    (∃ t, exec .decode { State.reset with flen := 257#16 } = .next t ∧ t.err = true ∧ t.errCode = 3#4) ∧
    (∃ t, exec .decode { State.reset with flen := 3#16 } = .next t ∧ t.err = true ∧ t.errCode = 2#4) ∧
    (∃ t, exec .decode (loaded .rtu [0x01#8, 0x03#8, 0x21#8, 0x40#8]) = .next t ∧ t.err = true ∧ t.errCode = 1#4) :=
  ⟨by decide, next_of_any _ (by decide), next_of_any _ (by decide), next_of_any _ (by decide +kernel)⟩

/-- A command word that changes each of the registers the statement names. -/
theorem witness_OnlyTheNamedCommandsWriteEachRegister :
    (∃ t, runCommand 0x00001102#32 State.reset = .next t ∧ t.crc ≠ State.reset.crc) ∧
    (∃ t, runCommand 0x00001105#32 State.reset = .next t ∧ t.sum ≠ State.reset.sum) ∧
    (∃ t, runCommand 0x00000020#32 (loaded .rtu exception) = .next t ∧ t.addr ≠ 0#8 ∧ t.fc ≠ 0#8 ∧ t.excode ≠ 0#8 ∧
      t.excf ≠ false ∧ t.plen ≠ 0#16) ∧
    (∃ t, runCommand 0x00000012#32 State.reset = .next t ∧ t.plen ≠ 0#16 ∧ t.flen ≠ 0#16 ∧ t.fbuf ≠ []) :=
  ⟨next_of_any _ (by decide), next_of_any _ (by decide), next_of_any _ (by decide +kernel),
    next_of_any _ (by decide)⟩

/-- An encoder of each kind that succeeds, one that fails, and a command that is no encoder; an index inside the payload
and one beyond the frame. -/
theorem witness_CommandsStoreOnlyHeaderAndCheckBytes :
    (∃ t, exec .encResp (prepared .rtu 1#8 3#8 [0xAA#8]) = .next t ∧ t.err = false) ∧
    (2 ≠ 0 ∧ 2 ≠ 1 ∧ 2 < 2 + (prepared .rtu 1#8 3#8 [0xAA#8]).plen.toNat ∧
      frameLength (prepared .rtu 1#8 3#8 [0xAA#8]) ≤ 5) ∧
    (∃ t, exec (.encExc 2#8) State.reset = .next t ∧ t.err = false) ∧
    (∃ t, exec .encQuery { State.reset with plen := 253#16 } = .next t ∧ t.err = true) ∧
    ((∃ t, exec .decode (loaded .rtu query) = .next t ∧ t.err = false) ∧ ¬IsEncoder .decode) :=
  ⟨next_of_any _ (by decide), by decide, next_of_any _ (by decide), next_of_any _ (by decide),
    next_of_any _ (by decide +kernel), by simp [IsEncoder]⟩

theorem witness_ExcfHoldsTheAcceptedFramesFlag :
    (∃ t, step (commanding 0x00000020#32 (loaded .rtu exception)) = .next t ∧ t.excf ≠ (loaded .rtu exception).excf) ∧
    (∃ t, exec .decode (loaded .rtu query) = .next t ∧ t.err = false) ∧
    (∃ t, exec .decode { State.reset with flen := 3#16 } = .next t ∧ t.err = true) :=
  ⟨next_of_any _ (by decide +kernel), next_of_any _ (by decide +kernel), next_of_any _ (by decide)⟩

theorem witness_ErrCodeIsOneOfTheFourCodes :
    (∃ t, runCommand 0x00000030#32 State.reset = .next t ∧ t.err = false) ∧
    (∃ t, runCommand 0x00000000#32 State.reset = .next t ∧ t.err = true) ∧
    (∃ t, step (commanding 0x00000000#32 State.reset) = .next t ∧ t.errCode ≠ State.reset.errCode) :=
  ⟨next_of_any _ (by decide), next_of_any _ (by decide), next_of_any _ (by decide)⟩

theorem witness_CommandsStopOnlyOnUnwrittenBytes :
    exec .crcBuf { State.reset with flen := 2#16 } = .fault (.unwrittenBuffer 0) := rfl

theorem witness_PreparedCommandsComplete :
    PayloadWritten (prepared .rtu 1#8 3#8 [0xAA#8]) ∧ BufferWritten (loaded .ascii reply) := by
  constructor
  · show ∀ k, k < 1 → _
    decide
  · show ∀ k, k < 7 → _
    decide

/-- The first and the last register of the page, a reserved byte inside a register, and each kind of refusal. -/
theorem witness_RegisterPageAccessesFollowTheMap :
    (Takes (hosting (.read 0x00028#17 4) [] State.reset) (.read 0x00028#17 4) [] ∧ (0x28, RegName.cap) ∈ allowedReads ∧
      (0x00028#17).toNat < 0x2C) ∧
    (Takes (hosting (.write 0x00000#17 4 1#32) [] State.reset) (.write 0x00000#17 4 1#32) [] ∧ (0x00000#17).toNat = 0x00) ∧
    (0x08, RegName.mode) ∈ allowedWrites ∧ (0x00000#17).toNat ∉ allowedReads.map Prod.fst ∧
    ((0x0002B#17).toNat < 0x2C ∧ (0x0002B#17).toNat ∉ allowedReads.map Prod.fst ∧
      (0x0002B#17).toNat ∉ allowedWrites.map Prod.fst) ∧
    ((0x00004#17).toNat ≠ 0x00 ∧ (0x00004#17).toNat ∉ allowedWrites.map Prod.fst) := by
  refine ⟨⟨⟨rfl, rfl⟩, ?_⟩, ⟨⟨rfl, rfl⟩, ?_⟩, ?_⟩ <;> decide

/-- Every writable register, and a length too large for each command that checks one. -/
theorem witness_RegisterWriteReadsBackItsDefinedBits :
    (∀ x ∈ writableBits, Takes
      (hosting (.write (BitVec.ofNat 17 x.1) 4 0xFFFFFFFF#32) [.read (BitVec.ofNat 17 x.1) 4] State.reset)
      (.write (BitVec.ofNat 17 x.1) 4 0xFFFFFFFF#32) [.read (BitVec.ofNat 17 x.1) 4]) ∧
    capacity { State.reset with plen := 253#16 } < 2 + ({ State.reset with plen := 253#16 } : State).plen.toNat + checkWidth .rtu ∧
    capacity { State.reset with flen := 257#16 } < ({ State.reset with flen := 257#16 } : State).flen.toNat :=
  ⟨fun _ _ => ⟨rfl, rfl⟩, by decide, by decide⟩

/-- The last byte and the last word of the buffer, written and not; the accesses one past them; a misaligned one; a width of 3. -/
theorem witness_WindowAccessesMoveWholeAlignedRanges :
    ((0x100FC#17).toNat = 0x10000 + 252 ∧ (0x100FC#17).toNat % 4 = 0 ∧ 252 + 4 ≤ capacity State.reset ∧
      BytesAt { State.reset with fbuf := Memory.writeRange [] 252 [1#8, 2#8, 3#8, 4#8] } 252 [1#8, 2#8, 3#8, 4#8] ∧
      FirstUnwritten { State.reset with fbuf := Memory.writeRange [] 252 [1#8, 2#8, 3#8] } 252 4 255) ∧
    ((0x100FF#17).toNat = 0x10000 + 255 ∧ (0x100FF#17).toNat % 1 = 0 ∧ 255 + 1 ≤ capacity State.reset) ∧
    Takes (hosting (.read 0x100FC#17 4) [] State.reset) (.read 0x100FC#17 4) [] ∧
    Takes (hosting (.write 0x100FF#17 1 7#32) [] State.reset) (.write 0x100FF#17 1 7#32) [] ∧
    ((0x10100#17).toNat = 0x10000 + 256 ∧ ¬256 + 1 ≤ capacity State.reset) ∧
    ((0x100FE#17).toNat % 4 ≠ 0) ∧ ¬(3 = 1 ∨ 3 = 2 ∨ 3 = 4) :=
  ⟨⟨by decide, by decide, by decide, bytesAt_of_readRange (by decide), firstUnwritten_of_readRange (by decide)⟩,
    by decide, ⟨rfl, rfl⟩, ⟨rfl, rfl⟩, by decide, by decide, by decide⟩

/-- The ends of the reserved ranges and the first address beyond the buffer. -/
theorem witness_ReservedAddressesRaiseBusErrors :
    (0x2C ≤ (0x0002C#17).toNat ∧ (0x0002C#17).toNat ≤ 0xFFFF) ∧
    (0x2C ≤ (0x0FFFF#17).toNat ∧ (0x0FFFF#17).toNat ≤ 0xFFFF) ∧
    0x10000 + capacity State.reset ≤ (0x10100#17).toNat ∧ 0x10000 + capacity State.reset ≤ (0x1FFFF#17).toNat ∧
    Takes (hosting (.read 0x0002C#17 4) [] State.reset) (.read 0x0002C#17 4) [] ∧
    Takes (hosting (.write 0x10100#17 1 0#32) [] State.reset) (.write 0x10100#17 1 0#32) [] :=
  ⟨by decide, by decide, by decide, by decide, ⟨rfl, rfl⟩, ⟨rfl, rfl⟩⟩

/-- A register read and a window read done twice, a register write, a window write of the last word, a command written twice. -/
theorem witness_ReadsAreIdempotentAndCommandWritesAreNot :
    (Takes (hosting (.read 0x0000C#17 4) [.read 0x0000C#17 4] State.reset) (.read 0x0000C#17 4) [.read 0x0000C#17 4] ∧
      ∃ t, step (hosting (.read 0x0000C#17 4) [.read 0x0000C#17 4] State.reset) = .next t ∧ t.err = false) ∧
    (∃ t, step (hosting (.read 0x10000#17 4) [.read 0x10000#17 4] (loaded .rtu query)) = .next t ∧ t.err = false) ∧
    (Takes (hosting (.write 0x0001C#17 4 5#32) [] State.reset) (.write 0x0001C#17 4 5#32) [] ∧
      ∃ t, step (hosting (.write 0x0001C#17 4 5#32) [] State.reset) = .next t ∧ t.plen = 5#16) ∧
    (Takes (hosting (.write 0x100FC#17 4 5#32) [] State.reset) (.write 0x100FC#17 4 5#32) [] ∧
      ∃ t, step (hosting (.write 0x100FC#17 4 5#32) [] State.reset) = .next t ∧ t.fbuf.read 252 = some 5#8) ∧
    (Takes (hosting (.write 0x00000#17 4 0x105#32) [.write 0x00000#17 4 0x105#32] State.reset)
        (.write 0x00000#17 4 0x105#32) [.write 0x00000#17 4 0x105#32] ∧
      ∃ t, step (hosting (.write 0x00000#17 4 0x105#32) [.write 0x00000#17 4 0x105#32] State.reset) = .next t ∧
        t.sum = 0x01#8) :=
  ⟨⟨⟨rfl, rfl⟩, next_of_any _ (by decide)⟩, next_of_any _ (by decide),
    ⟨⟨rfl, rfl⟩, next_of_any _ (by decide)⟩, ⟨⟨rfl, rfl⟩, next_of_any _ (by decide)⟩, ⟨rfl, rfl⟩,
    next_of_any _ (by decide)⟩

theorem witness_MixedWidthAccessesAreLittleEndian :
    Takes (hosting (.write 0x100FC#17 4 0x01000611#32) [] State.reset) (.write 0x100FC#17 4 0x01000611#32) [] ∧
      (0x100FC#17).toNat = 0x10000 + 252 ∧ 252 % 4 = 0 ∧ 252 + 4 ≤ capacity State.reset :=
  ⟨⟨rfl, rfl⟩, by decide, by decide, by decide⟩

theorem witness_OffsetIsTheLow17BitsOfTheHostAddress : 0x1FFFF < 0x20000 := by decide

theorem witness_ResetLeavesTheStatedValues :
    ({ hosting .releaseReset [] (loaded .ascii reply) with inReset := true } : State).inReset = true ∧
      ({ hosting .releaseReset [] (loaded .ascii reply) with inReset := true } : State).pending = [.releaseReset] :=
  ⟨rfl, rfl⟩

/-- A loaded buffer, reset, and lengths at both ends of their ranges. -/
theorem witness_ResetLeavesEveryBufferByteUnwritten :
    Takes (hosting .assertReset [.releaseReset] (loaded .rtu query)) .assertReset [.releaseReset] ∧
    (∃ t, Host.Core.run Sys2Proof.core 2 (hosting .assertReset [.releaseReset] (loaded .rtu query)) = .next t ∧
      capacity t = 256) ∧
    (255 < capacity State.reset ∧ 0 < (256#16).toNat ∧ (256#16).toNat ≤ capacity State.reset ∧ 4 ≤ (256#16).toNat ∧
      4 + (252#16).toNat ≤ capacity State.reset) :=
  ⟨⟨rfl, rfl⟩, ⟨_, rfl, rfl⟩, by decide⟩

theorem witness_AccessesInResetHaveNoStep :
    (hosting .assertReset [] State.reset).pending = [.assertReset] ∧
    ((hosting (.read 0x0000C#17 4) [] { State.reset with inReset := true }).inReset = true ∧
      (hosting (.read 0x0000C#17 4) [] { State.reset with inReset := true }).pending = [.read 0x0000C#17 4]) ∧
    (hosting .releaseReset [.read 0x0000C#17 4] { State.reset with inReset := true }).pending =
      [.releaseReset, .read 0x0000C#17 4] ∧
    (∃ t, step (hosting (.read 0x0000C#17 4) [] State.reset) = .next t ∧ t.inReset = false) ∧
    (∃ t, step (hosting (.write 0x00000#17 4 0#32) [] State.reset) = .next t ∧ t.inReset = false) :=
  ⟨rfl, ⟨rfl, rfl⟩, rfl, next_of_any _ (by decide), next_of_any _ (by decide)⟩

theorem witness_ResetAbandonsTheRunningCommand :
    Takes (hosting (.abandonedWrite 0x00000010#32) [.releaseReset] (loaded .rtu query)) (.abandonedWrite 0x00000010#32)
      [.releaseReset] := ⟨rfl, rfl⟩

theorem witness_CapIsAConstantOfTheInstance :
    Takes (hosting (.read 0x00028#17 4) [] (smallest State.reset)) (.read 0x00028#17 4) [] ∧
    (∃ t, step (hosting .assertReset [] (smallest State.reset)) = .next t ∧ t.cfg.maxPacketSize = 5) ∧
    Takes (hosting (.write 0x00028#17 4 7#32) [] State.reset) (.write 0x00028#17 4 7#32) [] :=
  ⟨⟨rfl, rfl⟩, next_of_any _ (by decide), rfl, rfl⟩

/-- A state that meets the invariant, with bytes written and an error reported, and its step. -/
theorem witness_EveryStepKeepsTheBlockInvariant :
    BlockInv (commanding 0x00000020#32 (loaded .rtu [0x01#8, 0x03#8, 0x21#8, 0x40#8])) ∧
    (∃ t, step (commanding 0x00000020#32 (loaded .rtu [0x01#8, 0x03#8, 0x21#8, 0x40#8])) = .next t ∧ BlockInv t ∧
      t.err = true) :=
  ⟨by decide, next_of_any _ (by decide +kernel)⟩

theorem witness_HostsThatRespectResetAreNeverStuckInIt :
    hostRespectsReset (hosting .assertReset [.releaseReset, .read 0x0000C#17 4] State.reset).inReset
      [.assertReset, .releaseReset, .read 0x0000C#17 4] = true := rfl

/-- An encoded frame in each mode. -/
theorem witness_DecodeInvertsEncode :
    (∃ t, exec .encQuery (prepared .rtu 0x11#8 0x06#8 [0x00#8, 0x01#8]) = .next t ∧ t.err = false) ∧
    (∃ t, exec .encResp (prepared .ascii 0x11#8 0x83#8 []) = .next t ∧ t.err = false) :=
  ⟨next_of_any _ (by decide), next_of_any _ (by decide)⟩

/-- The last check byte of an encoded frame in each mode, and its highest bit. -/
theorem witness_EverySingleBitFlipIsDetected :
    (IsEncoder (.encExc 0x02#8) ∧ ∃ t, exec (.encExc 0x02#8) (prepared .rtu 0x11#8 0x03#8 []) = .next t ∧ t.err = false ∧
      4 < t.flen.toNat ∧ t.fbuf.read 4 = some 0x34#8) ∧
    (IsEncoder .encResp ∧ ∃ t, exec .encResp (prepared .ascii 0x01#8 0x03#8 []) = .next t ∧ t.err = false ∧
      2 < t.flen.toNat ∧ t.fbuf.read 2 = some 0xFC#8) ∧ 7 < 8 :=
  ⟨⟨by simp [IsEncoder], next_of_any _ (by decide +kernel)⟩, ⟨by simp [IsEncoder], next_of_any _ (by decide)⟩,
    by decide⟩

theorem witness_WholeFrameResidueIsZero :
    (IsEncoder .encQuery ∧ (prepared .rtu 0x11#8 0x06#8 []).mode = .rtu ∧
      ∃ t, exec .encQuery (prepared .rtu 0x11#8 0x06#8 []) = .next t ∧ t.err = false) ∧
    (IsEncoder .encResp ∧ (prepared .ascii 0x11#8 0x06#8 []).mode = .ascii ∧
      ∃ t, exec .encResp (prepared .ascii 0x11#8 0x06#8 []) = .next t ∧ t.err = false) :=
  ⟨⟨by simp [IsEncoder], rfl, next_of_any _ (by decide)⟩,
    by simp [IsEncoder], rfl, next_of_any _ (by decide)⟩

/-- The last value inside and the first outside each range of the assembler. -/
theorem witness_AssemblerLinesGiveTheirAccesses :
    255 ≤ 255 ∧ 255 < 256 ∧ 0xFFFF < 0x10000 ∧ 2 ^ 32 - 1 < 2 ^ 32 ∧ (255 < 256 ∨ 0x10000 ≤ 0) ∧
      (255 < 0 ∨ 0x10000 ≤ 0x10000) ∧ 0x10000 ≤ 0x10000 ∧ 2 ^ 32 ≤ 2 ^ 32 ∧ (2 ^ 32 ≤ 2 ^ 32 ∨ 0x10000 ≤ 0) ∧
      (2 ^ 32 ≤ 0 ∨ 0x10000 ≤ 0x10000) := by decide

/-- One line of each of the six assembles, and a state holds its accesses next; WRBUF, FRAME and LOADFRAME end at CAP. -/
theorem witness_PseudoInstructionsDoWhatTheyAreFor :
    (∃ es, assemble (.crcSeq ([0x11#8, 0x06#8].map BitVec.toNat)) = some es ∧ es.length = 3 ∧
      ({ State.reset with pending := es } : State).pending = es ++ []) ∧
    (∃ es, assemble (.lrcSeq (([] : List Byte).map BitVec.toNat)) = some es ∧ es.length = 1) ∧
    (∃ es, assemble (.setMode .ascii) = some es ∧ es.length = 1) ∧
    ((∃ es, assemble (.wrbuf 3 ([0xC1#8, 0x34#8].map BitVec.toNat)) = some es ∧ es.length = 2) ∧
      3 + 2 ≤ capacity (smallest State.reset)) ∧
    ((∃ es, assemble (.frame (0x11#8).toNat (0x03#8).toNat ([0xAA#8, 0xBB#8, 0xCC#8].map BitVec.toNat)) = some es ∧
      es.length = 6) ∧ 2 + 3 ≤ capacity (smallest State.reset)) ∧
    (∃ es, assemble (.loadFrame (exception.map BitVec.toNat)) = some es ∧ es.length = 6) ∧
    exception.length ≤ capacity (smallest State.reset) ∧ State.reset.inReset = false :=
  ⟨⟨_, rfl, rfl, rfl⟩, ⟨_, rfl, rfl⟩, ⟨_, rfl, rfl⟩, ⟨⟨_, rfl, rfl⟩, by decide⟩, ⟨⟨_, rfl, rfl⟩, by decide⟩,
    ⟨_, rfl, rfl⟩, by decide, rfl⟩

/-- An unwritten byte behind a written one for CRC_BUF and LRC_BUF, a frame's unwritten last byte, a payload never written. -/
theorem witness_CommandFaultsNameTheLowestUnwrittenByte :
    (({ loaded .rtu [0x11#8] with flen := 2#16 } : State).flen.toNat ≤ capacity { loaded .rtu [0x11#8] with flen := 2#16 } ∧
      FirstUnwritten { loaded .rtu [0x11#8] with flen := 2#16 } 0 2 1) ∧
    (2 + checkWidth .rtu ≤ ({ loaded .rtu [1#8, 3#8, 0#8] with flen := 4#16 } : State).flen.toNat ∧
      FirstUnwritten { loaded .rtu [1#8, 3#8, 0#8] with flen := 4#16 } 0 4 3) ∧
    (2 + ({ State.reset with plen := 252#16 } : State).plen.toNat + checkWidth .rtu ≤ capacity State.reset ∧
      FirstUnwritten { State.reset with plen := 252#16 } 2 252 2) :=
  ⟨⟨by decide, firstUnwritten_of_readRange (by decide)⟩, ⟨by decide, firstUnwritten_of_readRange (by decide)⟩,
    by decide, firstUnwritten_of_readRange (by decide)⟩

end Sys2Proof.Tests
end

section
/-! The state family: STATUS, the registers at their bits, a register written and read back, CAP. -/

namespace Sys2Proof.Proofs

open Sys2Proof.Machine Sys2Proof.Claims

/-! ## STATUS at its bits (10_state.md R12, R14 to R17) -/

/-- The layout of STATUS, bit by bit. -/
theorem statusWord_getLsbD (s : State) (i : Nat) :
    (statusWord s).getLsbD i =
      if i = 0 then s.err else if i = 1 then s.errAcc else if i = 2 then s.excf else if i = 3 then false
      else s.errCode.getLsbD (i - 4) := by
  rcases i with _ | _ | _ | _ | i
  all_goals simp only [statusWord, BitVec.getLsbD_append]
  iterate 4 simp
  by_cases h : i < 4
  · simp +arith [h]
  · simp +arith [h, BitVec.getLsbD_of_ge s.errCode i (by omega)]

theorem statusWord_errCode (s : State) : (statusWord s).extractLsb' 4 4 = s.errCode := by
  apply BitVec.eq_of_getLsbD_eq
  intro i hi
  rw [BitVec.getLsbD_extractLsb', statusWord_getLsbD]
  have : 4 + i ≠ 0 ∧ 4 + i ≠ 1 ∧ 4 + i ≠ 2 ∧ 4 + i ≠ 3 := by omega
  simp [hi, this]

theorem statusWord_high (s : State) : (statusWord s).extractLsb' 8 24 = 0#24 := by
  apply BitVec.eq_of_getLsbD_eq
  intro i hi
  rw [BitVec.getLsbD_extractLsb', statusWord_getLsbD]
  have : 8 + i ≠ 0 ∧ 8 + i ≠ 1 ∧ 8 + i ≠ 2 ∧ 8 + i ≠ 3 := by omega
  simp [hi, this, BitVec.getLsbD_of_ge s.errCode (8 + i - 4) (by omega)]

theorem statusWord_undefinedBits (s : State) : statusWord s &&& ~~~0x000000F7#32 = 0#32 := by
  have hmask : ~~~0x000000F7#32 = ~~~0#24 ++ 0#4 ++ 1#1 ++ 0#1 ++ 0#1 ++ 0#1 := rfl
  rw [hmask, statusWord]
  iterate 5 rw [BitVec.and_append]
  simp

/-! ## A field in a 32-bit register -/

/-- A field shown from bit 0 on is read at its own bits, and every bit above it is 0. -/
theorem setWidth_extractLsb' {w n : Nat} (x : BitVec w) (h : w ≤ n) :
    (x.setWidth n).extractLsb' 0 w = x ∧ (x.setWidth n).extractLsb' w (n - w) = 0#(n - w) := by
  constructor <;> apply BitVec.eq_of_getLsbD_eq <;> intro i hi
  · simp [hi]
    omega
  · simp [hi]

/-- The low bits of a word shown from bit 0 on are the word under the mask of the field. -/
theorem setWidth_extractLsb'_eq_and (v : Word) (w : Nat) (h : w ≤ 32) :
    (v.extractLsb' 0 w).setWidth 32 = v &&& BitVec.ofNat 32 (2 ^ w - 1) := by
  apply BitVec.eq_of_toNat_eq
  have hfield : v.toNat % 2 ^ w < 2 ^ 32 := (Nat.mod_le _ _).trans_lt v.isLt
  have hmask : 2 ^ w - 1 < 2 ^ 32 := by
    have hpow : 2 ^ w ≤ 2 ^ 32 := Nat.pow_le_pow_right (by decide) h
    omega
  rw [BitVec.toNat_and, BitVec.toNat_ofNat, Nat.mod_eq_of_lt hmask, Nat.and_two_pow_sub_one_eq_mod]
  simp
  omega

/-- The LRC value of a sum, as a number. -/
theorem lrcOfSum_toNat (x : Byte) : (lrcOfSum x).toNat = (256 - x.toNat) % 256 := by
  simp [lrcOfSum]

/-- LRC shows SUM over its LRC value, and 0 above (10_state.md R20). -/
theorem lrcWord_fields (x : Byte) :
    (lrcWord x).extractLsb' 8 8 = x ∧ (lrcWord x).extractLsb' 0 8 = lrcOfSum x ∧
      (lrcWord x).extractLsb' 16 16 = 0#16 := by
  refine ⟨?_, ?_, ?_⟩ <;> apply BitVec.eq_of_getLsbD_eq <;> intro i hi <;>
    simp only [BitVec.getLsbD_extractLsb', lrcWord, BitVec.getLsbD_append]
  · simp +arith [hi]
  · simp [hi]
  · simp +arith

/-- CAP shows the whole parameter: it fits its 16 bits (00_scope.md R5). -/
theorem readReg_cap_toNat (s : State) : (readReg .cap s).toNat = s.cfg.maxPacketSize := by
  have := s.cfg.fitsLength
  simp only [readReg, capacity, BitVec.toNat_ofNat]
  omega

theorem readReg_cap_high (s : State) : (readReg .cap s).extractLsb' 16 16 = 0#16 := by
  apply BitVec.eq_of_toNat_eq
  have := s.cfg.fitsLength
  rw [BitVec.extractLsb'_toNat, readReg_cap_toNat, Nat.shiftRight_eq_div_pow]
  simp
  omega

theorem readReg_mode (s : State) : readReg .mode s = if s.mode = .ascii then 1#32 else 0#32 := by
  unfold readReg
  cases s.mode <;> rfl

theorem regOffset_aligned (r : RegName) : regOffset r % 4 = 0 := by cases r <;> rfl

/-- Settles O36: each register's word is its fields laid out from the low end, with 0 above. -/
theorem registerReadsShowFieldsAtTheirBits : Obligations.RegisterReadsShowFieldsAtTheirBits := by
  intro s
  obtain ⟨hsum, hlrc, hhigh⟩ := lrcWord_fields s.sum
  refine ⟨setWidth_extractLsb' s.crc (by decide), ⟨hsum, ?_, hhigh⟩,
    ⟨statusWord_errCode s, statusWord_getLsbD s 2, statusWord_getLsbD s 1, statusWord_getLsbD s 0,
      statusWord_undefinedBits s⟩,
    readReg_mode s, setWidth_extractLsb' s.addr (by decide), setWidth_extractLsb' s.fc (by decide),
    setWidth_extractLsb' s.plen (by decide), setWidth_extractLsb' s.flen (by decide),
    setWidth_extractLsb' s.excode (by decide), ⟨readReg_cap_toNat s, readReg_cap_high s⟩,
    fun r => ⟨regOffset_aligned r, regOffset_lt r⟩⟩
  exact (congrArg BitVec.toNat hlrc).trans (lrcOfSum_toNat s.sum)

/-! ## How a command word and a step end -/

/-- `exec_ends` for every command word: a failure is a STATUS write, a success is a success of the decoded command. -/
theorem runCommand_ends {w : Word} {s t : State} (h : runCommand w s = .next t) :
    (∃ e, t = setFailure e s) ∨
      ∃ i, decodeCommand w = .ok i ∧ exec i s = .next t ∧ t.err = false ∧ t.errCode = 0#4 ∧
        (i ≠ .clrErr → t.errAcc = s.errAcc) ∧ (i ≠ .decode → t.excf = s.excf) := by
  rcases runCommand_cases w s with ⟨i, hi, hrun⟩ | ⟨e, -, hrun⟩ <;> rw [hrun] at h
  · rcases exec_ends h with ⟨e, -, rfl⟩ | ⟨herr, hcode, hacc, hexc⟩
    · exact .inl ⟨e, rfl⟩
    · exact .inr ⟨i, hi, h, herr, hcode, hacc, fun hd => (hexc hd).1⟩
  · cases h
    exact .inl ⟨_, rfl⟩

/-- No command changes the parameter (10_state.md R26). -/
theorem exec_cfg {i : Instr} {s t : State} (h : exec i s = .next t) : t.cfg = s.cfg := by
  cases i with
  | crcInit | crcByte | lrcInit | lrcByte | clrErr => cases h; rfl
  | crcBuf | lrcBuf =>
    rcases useBuffer_next h with ⟨-, rfl⟩ | ⟨-, bs, -, h⟩
    · rfl
    · cases h; rfl
  | encQuery | encResp =>
    rcases encodePayload_next h with ⟨-, rfl⟩ | ⟨-, bs, -, rfl⟩ <;> simp
  | encExc code =>
    obtain ⟨bs, -, rfl⟩ := execEncExc_next h
    simp
  | decode =>
    rcases execDecode_next h with ⟨-, rfl⟩ | ⟨-, -, rfl⟩ | ⟨-, -, bs, cs, -, -, ⟨-, rfl⟩ | ⟨-, a, f, e, -, -, -, rfl⟩⟩
    all_goals simp

theorem runCommand_cfg {w : Word} {s t : State} (h : runCommand w s = .next t) : t.cfg = s.cfg := by
  rcases runCommand_ends h with ⟨e, rfl⟩ | ⟨i, -, h, -⟩
  · rfl
  · exact exec_cfg h

theorem leaveReset_keeps_cfg (s : State) : (leaveReset s).cfg = s.cfg := by
  unfold leaveReset
  split <;> rfl

theorem leaveReset_errCode_cases (s : State) :
    (leaveReset s).errCode = 0#4 ∨ (leaveReset s).errCode = s.errCode := by
  unfold leaveReset
  split
  · exact .inl rfl
  · exact .inr rfl

/-- The fields of STATUS are the same in both states. -/
def SameStatus (s t : State) : Prop :=
  t.err = s.err ∧ t.errAcc = s.errAcc ∧ t.excf = s.excf ∧ t.errCode = s.errCode

/-- CMD is the register at address 0, and takes only words. -/
theorem eq_of_regAccess?_cmd {a : BlockAddr} {n : Nat} (h : regAccess? a.toNat n = some .cmd) :
    a = 0x00000#17 ∧ n = 4 := by
  obtain ⟨hn, ha⟩ := regAccess?_eq_some h
  exact ⟨BitVec.eq_of_toNat_eq ha.symm, hn⟩

/-- What a step can do to STATUS: keep it, run a command word, or serve an event of the reset input, which leaves ERRCODE
0 or as it was. -/
theorem step_status {s t : State} (h : step s = .next t) :
    SameStatus s t ∨
    (∃ w rest, s.pending = .write 0x00000#17 4 w :: rest ∧
      runCommand w { s with pending := rest, reply := .done } = .next t) ∨
    (∃ e rest, s.pending = e :: rest ∧ IsResetEvent e ∧ (t.errCode = 0#4 ∨ t.errCode = s.errCode)) := by
  rcases step_cases h with ⟨-, rfl⟩ | ⟨e, rest, hp, ⟨a, n, -, -, hread⟩ | ⟨a, n, v, rfl, -, hwrite⟩ | ⟨rfl, rfl⟩ |
    ⟨rfl, rfl⟩ | ⟨v, rfl, -, rfl⟩⟩
  · exact .inl ⟨rfl, rfl, rfl, rfl⟩
  · left
    rcases busRead_next hread with ⟨r, -, -, rfl⟩ | ⟨i, bs, -, -, rfl⟩ <;> exact ⟨rfl, rfl, rfl, rfl⟩
  · rcases hwrite with ⟨hcmd, hrun⟩ | ⟨r, -, -, -, rfl⟩ | ⟨i, -, rfl⟩
    · obtain ⟨rfl, rfl⟩ := eq_of_regAccess?_cmd hcmd
      exact .inr (.inl ⟨v, rest, hp, hrun⟩)
    · left; simp [SameStatus]
    · exact .inl ⟨rfl, rfl, rfl, rfl⟩
  · exact .inr (.inr ⟨_, rest, hp, .inl rfl, .inl rfl⟩)
  · exact .inr (.inr ⟨_, rest, hp, .inr (.inl rfl), leaveReset_errCode_cases _⟩)
  · exact .inr (.inr ⟨_, rest, hp, .inr (.inr ⟨v, rfl⟩), .inl rfl⟩)

/-! ## ERRACC (10_state.md R15) -/

/-- A command word that fails sets ERRACC. -/
theorem runCommand_errAcc_of_err {w : Word} {s t : State} (h : runCommand w s = .next t) (herr : t.err = true) :
    t.errAcc = true := by
  rcases runCommand_ends h with ⟨e, rfl⟩ | ⟨i, -, -, hok, -⟩
  · rfl
  · simp [hok] at herr

/-- A command word that succeeds keeps ERRACC, CLR_ERR apart. -/
theorem runCommand_errAcc_of_ok {w : Word} {s t : State} (h : runCommand w s = .next t) (herr : t.err = false)
    (hw : decodeCommand w ≠ .ok .clrErr) : t.errAcc = s.errAcc := by
  rcases runCommand_ends h with ⟨e, rfl⟩ | ⟨i, hi, -, -, -, hacc, -⟩
  · simp at herr
  · exact hacc fun hc => hw (hc ▸ hi)

/-- Settles O28, by what a command word and a step can do to STATUS. -/
theorem errAccIsStickyUntilClrErrOrReset : Obligations.ErrAccIsStickyUntilClrErrOrReset := by
  refine ⟨fun w s t => runCommand_errAcc_of_err, fun w s t => runCommand_errAcc_of_ok, ?_, rfl,
    fun s => statusWord_getLsbD s 1⟩
  intro s t h hset hclear
  rcases step_status h with ⟨-, hacc, -⟩ | ⟨w, rest, hp, hrun⟩ | ⟨e, rest, hp, he, -⟩
  · simp [hacc, hset] at hclear
  · refine ⟨_, rest, hp, .inl ⟨w, rfl, ?_⟩⟩
    by_contra hw
    cases herr : t.err with
    | true => simp [runCommand_errAcc_of_err hrun herr] at hclear
    | false => simp [runCommand_errAcc_of_ok hrun herr hw, hset] at hclear
  · exact ⟨e, rest, hp, .inr he⟩

/-! ## EXCF (10_state.md R16) -/

/-- DECODE fails and keeps EXCF, or accepts a frame and shows bit 7 of its byte 1. -/
theorem exec_decode_excf {s t : State} (h : exec .decode s = .next t) :
    (t.err = true ∧ t.excf = s.excf) ∨
      (t.err = false ∧ ∃ f, s.fbuf.read 1 = some f ∧ t.excf = f.getLsbD 7) := by
  rcases execDecode_next h with ⟨-, rfl⟩ | ⟨-, -, rfl⟩ | ⟨-, -, bs, cs, -, -, ⟨-, rfl⟩ | ⟨-, a, f, e, -, hf, -, rfl⟩⟩
  · exact .inl ⟨rfl, rfl⟩
  · exact .inl ⟨rfl, rfl⟩
  · exact .inl ⟨rfl, rfl⟩
  · exact .inr ⟨rfl, f, hf, rfl⟩

/-- Settles O29: of the command words only those of DECODE reach EXCF. -/
theorem excfHoldsTheAcceptedFramesFlag : Obligations.ExcfHoldsTheAcceptedFramesFlag := by
  refine ⟨?_, ?_, ?_, rfl, fun s => statusWord_getLsbD s 2⟩
  · intro s t h hne
    rcases step_status h with ⟨-, -, hexcf, -⟩ | ⟨w, rest, hp, hrun⟩ | ⟨e, rest, hp, he, -⟩
    · exact absurd hexcf hne
    · refine ⟨_, rest, hp, .inl ?_⟩
      rcases runCommand_ends hrun with ⟨e, rfl⟩ | ⟨i, hi, hexec, -, -, -, hexcf⟩
      · exact absurd rfl hne
      · obtain rfl : i = .decode := by_contra fun hd => hne (hexcf hd)
        rcases exec_decode_excf hexec with ⟨-, hkept⟩ | ⟨herr, f, hf, hflag⟩
        · exact absurd hkept hne
        · exact ⟨w, f, rfl, hi, herr, hf, hflag⟩
    · exact ⟨e, rest, hp, .inr he⟩
  · intro s t h herr
    rcases exec_decode_excf h with ⟨hfail, -⟩ | ⟨-, hflag⟩
    · simp [herr] at hfail
    · exact hflag
  · intro s t h herr
    rcases exec_decode_excf h with ⟨-, hkept⟩ | ⟨hok, -⟩
    · exact hkept
    · simp [herr] at hok

/-! ## ERRCODE (10_state.md R17) -/

theorem errorCode_cases (e : CmdError) :
    errorCode e = 1#4 ∨ errorCode e = 2#4 ∨ errorCode e = 3#4 ∨ errorCode e = 4#4 := by
  cases e <;> decide

theorem errorCode_le_four (e : CmdError) : (errorCode e).toNat ≤ 4 := by cases e <;> decide

/-- Settles O30: a command word ends in code 0 or in `errorCode` of its error, and nothing else but reset writes ERRCODE. -/
theorem errCodeIsOneOfTheFourCodes : Obligations.ErrCodeIsOneOfTheFourCodes := by
  refine ⟨?_, ?_, rfl, rfl, rfl, rfl, rfl,
    fun s => ⟨statusWord_errCode s, statusWord_getLsbD s 3, statusWord_high s⟩⟩
  · intro w s t h
    rcases runCommand_ends h with ⟨e, rfl⟩ | ⟨i, -, -, herr, hcode, -⟩
    · simpa using errorCode_cases e
    · simp [herr, hcode]
  · intro s t h hne
    rcases step_status h with ⟨-, -, -, hkept⟩ | ⟨w, rest, -, hrun⟩ | ⟨e, rest, -, -, hzero | hkept⟩
    · exact absurd hkept hne
    · rcases runCommand_ends hrun with ⟨e, rfl⟩ | ⟨i, -, -, -, hcode, -⟩
      · exact errorCode_le_four e
      · simp [hcode]
    · simp [hzero]
    · exact absurd hkept hne

/-! ## Register accesses, reset released (20_memory.md R35) -/

theorem regOffset_toNat (r : RegName) : (BitVec.ofNat 17 (regOffset r)).toNat = regOffset r := by cases r <;> rfl

theorem regAccess?_regAddr (r : RegName) : regAccess? (BitVec.ofNat 17 (regOffset r)).toNat 4 = some r := by
  rw [regOffset_toNat, regAccess?_regOffset]

/-- CMD alone cannot be read. -/
theorem regReadable_of_ne_cmd {r : RegName} (hc : r ≠ .cmd) : regReadable r = true := by
  cases r with
  | cmd => exact absurd rfl hc
  | status | mode | crc | lrc | addr | fc | plen | flen | excode | cap => rfl

/-- What a register reads as does not depend on the model's view of the port. -/
theorem readReg_of_port (r : RegName) (s : State) (rest : List HostEvent) (p : Reply) :
    readReg r { s with pending := rest, reply := p } = readReg r s := by
  cases r <;> rfl

/-- A word read of a readable register answers its word. -/
theorem step_readReg {s : State} {r : RegName} {rest : List HostEvent} (hr : regReadable r = true)
    (h : Takes s (.read (BitVec.ofNat 17 (regOffset r)) 4) rest) :
    step s = .next { s with pending := rest, reply := .data (readReg r s) } := by
  obtain ⟨hreset, hp⟩ := h
  rw [step_read hreset hp, busRead, regAccess?_regAddr]
  simp [hr, readReg_of_port]

/-- A word write of a read-write register stores its field. -/
theorem step_writeReg {s : State} {r : RegName} {v : Word} {rest : List HostEvent} (hr : regWritable r = true)
    (hc : r ≠ .cmd) (h : Takes s (.write (BitVec.ofNat 17 (regOffset r)) 4 v) rest) :
    step s = .next { writeReg r v s with pending := rest, reply := .done } := by
  obtain ⟨hreset, hp⟩ := h
  rw [step_write hreset hp, busWrite, regAccess?_regAddr]
  cases r with
  | cmd => exact absurd rfl hc
  | mode | addr | fc | plen | flen => rfl
  | status | crc | lrc | excode | cap => cases hr

/-! ## A register written and read back (10_state.md R9) -/

/-- A FRAMING bit survives its enumeration. -/
theorem framingBit_framingOfBit (v : Word) : framingBit (framingOfBit (v.getLsbD 0)) = v.extractLsb' 0 1 := by
  apply BitVec.eq_of_getLsbD_eq
  intro i hi
  obtain rfl : i = 0 := by omega
  cases hv : v.getLsbD 0 <;> simp only [BitVec.getLsbD_extractLsb', Nat.zero_add, hv] <;> rfl

/-- A read-write register holds the written word's bits under its mask. -/
theorem readReg_writeReg_same {r : RegName} (hr : regWritable r = true) (hc : r ≠ .cmd) (v : Word) (s : State) :
    readReg r (writeReg r v s) = v &&& regDefinedBits r := by
  cases r with
  | cmd => exact absurd rfl hc
  | mode =>
    have hbit := congrArg (BitVec.setWidth 32) (framingBit_framingOfBit v)
    exact hbit.trans (setWidth_extractLsb'_eq_and v 1 (by decide))
  | addr | fc => exact setWidth_extractLsb'_eq_and v 8 (by decide)
  | plen | flen => exact setWidth_extractLsb'_eq_and v 16 (by decide)
  | status | crc | lrc | excode | cap => cases hr

/-- A register write leaves what every other register reads as. -/
theorem readReg_writeReg_other {r r' : RegName} (hne : r' ≠ r) (v : Word) (s : State) :
    readReg r' (writeReg r v s) = readReg r' s := by
  cases r' <;> simp [readReg, statusWord, capacity, writeReg_mode, writeReg_addr, writeReg_fc,
    writeReg_plen, writeReg_flen, hne.symm]

/-- A write of a read-write register and a read of it, one after the other. -/
theorem step_writeReg_step_readReg {s : State} {r : RegName} {v : Word} {rest : List HostEvent}
    (hr : regWritable r = true) (hc : r ≠ .cmd)
    (h : Takes s (.write (BitVec.ofNat 17 (regOffset r)) 4 v) (.read (BitVec.ofNat 17 (regOffset r)) 4 :: rest)) :
    ∃ t u, step s = .next t ∧ step t = .next u ∧ u.reply = .data (v &&& regDefinedBits r) ∧ u.pending = rest ∧
      (∀ r' : RegName, regOffset r' ≠ regOffset r → readReg r' u = readReg r' s) ∧ u.fbuf = s.fbuf ∧
      u.cfg = s.cfg := by
  refine ⟨_, _, step_writeReg hr hc h, step_readReg (regReadable_of_ne_cmd hc) ⟨by simpa using h.1, rfl⟩, ?_, rfl, ?_,
    by simp, by simp⟩
  · exact congrArg Reply.data ((readReg_of_port _ _ _ _).trans (readReg_writeReg_same hr hc v s))
  · intro r' hne
    have hr' : r' ≠ r := fun he => hne (congrArg regOffset he)
    rw [readReg_of_port, readReg_of_port, readReg_writeReg_other hr' v s]

/-- The read-write registers with their offsets and masks are those of the register map. -/
theorem exists_reg_of_mem_writableBits {x : Nat × Word} (h : x ∈ writableBits) :
    ∃ r, regWritable r = true ∧ r ≠ .cmd ∧ x = (regOffset r, regDefinedBits r) := by
  have hmap : writableBits =
      [RegName.mode, .addr, .fc, .plen, .flen].map fun r => (regOffset r, regDefinedBits r) := rfl
  rw [hmap, List.mem_map] at h
  obtain ⟨r, hr, rfl⟩ := h
  have hmem : ∀ r ∈ [RegName.mode, .addr, .fc, .plen, .flen], regWritable r = true ∧ r ≠ .cmd := by decide
  exact ⟨r, (hmem r hr).1, (hmem r hr).2, rfl⟩

/-- A payload that does not fit is caught by the encoder, in STATUS only (41_frame_codec.md R69). -/
theorem encodePayload_tooLarge {s : State} (h : capacity s < frameLength s) :
    encodePayload s = .next (reported 3#4 s) := by
  rw [encodePayload, if_pos h]
  rfl

/-- A buffer range beyond CAP is caught by the command that uses it, in STATUS only (40_checksum.md R65, R68). -/
theorem useBuffer_tooLarge {s : State} (h : capacity s < s.flen.toNat) (next : List Byte → Out) :
    useBuffer s next = .next (reported 3#4 s) := by
  rw [useBuffer, if_pos h]
  rfl

/-- A frame length beyond CAP is caught by DECODE, in STATUS only (41_frame_codec.md R72). -/
theorem execDecode_tooLarge {s : State} (h : capacity s < s.flen.toNat) :
    execDecode s = .next (reported 3#4 s) := by
  rw [execDecode, if_pos h]
  rfl

/-- Settles O35: a length is checked by the command that uses it, and a write stores the bits its mask keeps. -/
theorem registerWriteReadsBackItsDefinedBits : Obligations.RegisterWriteReadsBackItsDefinedBits := by
  refine ⟨fun s h => ⟨encodePayload_tooLarge h, encodePayload_tooLarge h⟩,
    fun s h => ⟨execDecode_tooLarge h, useBuffer_tooLarge h _, useBuffer_tooLarge h _⟩, ?_⟩
  intro x hx s v rest h
  obtain ⟨r, hr, hc, rfl⟩ := exists_reg_of_mem_writableBits hx
  exact step_writeReg_step_readReg hr hc h

/-! ## CAP (10_state.md R26) -/

theorem step_cfg {s t : State} (h : step s = .next t) : t.cfg = s.cfg := by
  rcases step_cases h with ⟨-, rfl⟩ | ⟨e, rest, -, ⟨a, n, -, -, hread⟩ | ⟨a, n, v, -, -, hwrite⟩ | ⟨-, rfl⟩ |
    ⟨-, rfl⟩ | ⟨v, -, -, rfl⟩⟩
  · rfl
  · rcases busRead_next hread with ⟨r, -, -, rfl⟩ | ⟨i, bs, -, -, rfl⟩ <;> rfl
  · rcases hwrite with ⟨-, hrun⟩ | ⟨r, -, -, -, rfl⟩ | ⟨i, -, rfl⟩
    · exact (runCommand_cfg hrun :)
    · simp
    · rfl
  · rfl
  · exact leaveReset_keeps_cfg _
  · rfl

/-- A write of CAP, of any width, is refused. -/
theorem busWrite_cap (n : Nat) (v : Word) (s : State) :
    busWrite 0x00028#17 n v s = .settled (.fault (.busError 0x00028#17)) := by
  rcases busWrite_cases 0x00028#17 n v s with ⟨hr, -⟩ | ⟨r, -, hr, hw, -⟩ | ⟨i, hi, -⟩ | hrefused
  · cases (regAccess?_eq_some hr).2
  · have hoff := (regAccess?_eq_some hr).2
    cases r with
    | cap => cases hw
    | cmd | status | mode | crc | lrc | addr | fc | plen | flen | excode => cases hoff
  · have := (windowAccess?_eq_some hi).1
    simp [windowBase] at this
    omega
  · exact hrefused

/-- Settles O46: no step writes the configuration, and the port refuses a write of CAP. -/
theorem capIsAConstantOfTheInstance : Obligations.CapIsAConstantOfTheInstance := by
  refine ⟨fun s rest h => step_readReg (r := .cap) rfl h, fun s t => step_cfg, ?_⟩
  intro s n v rest ⟨hreset, hp⟩
  rw [step_write hreset hp, busWrite_cap]
  rfl

end Sys2Proof.Proofs
end

section
/-! The memory family: accesses of the register page and of the buffer window, and what each kind of access can change. -/

namespace Sys2Proof.Proofs

open Sys2Proof.Machine Sys2Proof.Claims

/-! ## Refused accesses (20_memory.md R37) -/

/-- The buffer window lies above the register page, so it holds no access below its base. -/
theorem windowAccess?_eq_none_of_lt {s : State} {a n : Nat} (h : a < windowBase) : windowAccess? s a n = none := by
  refine windowAccess?_of_refused fun i ha => ?_
  simp only [windowBase] at h
  omega

/-- A read that addresses no readable register and no range of the buffer is refused. -/
theorem busRead_refused {a : BlockAddr} {n : Nat} {s : State}
    (hreg : ∀ r, regAccess? a.toNat n = some r → regReadable r = false) (hwin : windowAccess? s a.toNat n = none) :
    busRead a n s = refuse a := by
  unfold busRead
  cases hr : regAccess? a.toNat n with
  | some r => simp [hreg r hr]
  | none => simp [hwin]

/-- A write that addresses no writable register and no range of the buffer is refused. -/
theorem busWrite_refused {a : BlockAddr} {n : Nat} {v : Word} {s : State}
    (hreg : ∀ r, regAccess? a.toNat n = some r → regWritable r = false) (hwin : windowAccess? s a.toNat n = none) :
    busWrite a n v s = .settled (refuse a) := by
  rcases busWrite_cases a n v s with ⟨hr, -⟩ | ⟨r, -, hr, hwritable, -⟩ | ⟨i, hi, -⟩ | hrefused
  · cases hreg _ hr
  · simp [hreg r hr] at hwritable
  · simp [hwin] at hi
  · exact hrefused

theorem step_read_refused {s : State} {a : BlockAddr} {n : Nat} {rest : List HostEvent}
    (hreg : ∀ r, regAccess? a.toNat n = some r → regReadable r = false) (hwin : windowAccess? s a.toNat n = none)
    (h : Takes s (.read a n) rest) : step s = .fault (.busError a) :=
  (step_read h.1 h.2).trans (busRead_refused hreg hwin)

theorem step_write_refused {s : State} {a : BlockAddr} {n : Nat} {v : Word} {rest : List HostEvent}
    (hreg : ∀ r, regAccess? a.toNat n = some r → regWritable r = false) (hwin : windowAccess? s a.toNat n = none)
    (h : Takes s (.write a n v) rest) : step s = .fault (.busError a) :=
  (step_write h.1 h.2).trans (congrArg runAccepted (busWrite_refused (s := { s with pending := rest }) hreg hwin))

/-! ## The register page (20_memory.md R35) -/

/-- The reads the page allows are the readable registers of the map. -/
theorem mem_allowedReads_iff {x : Nat × RegName} :
    x ∈ allowedReads ↔ x.1 = regOffset x.2 ∧ regReadable x.2 = true := by
  constructor
  · have hmap : ∀ x ∈ allowedReads, x.1 = regOffset x.2 ∧ regReadable x.2 = true := by decide
    exact hmap x
  · obtain ⟨k, r⟩ := x
    rintro ⟨hoff : k = regOffset r, hreadable⟩
    subst hoff
    cases r with
    | cmd => cases hreadable
    | status | mode | crc | lrc | addr | fc | plen | flen | excode | cap => decide

/-- The plain writes the page allows are the writable registers of the map, CMD apart. -/
theorem mem_allowedWrites_iff {x : Nat × RegName} :
    x ∈ allowedWrites ↔ x.1 = regOffset x.2 ∧ regWritable x.2 = true ∧ x.2 ≠ .cmd := by
  constructor
  · have hmap : ∀ x ∈ allowedWrites, x.1 = regOffset x.2 ∧ regWritable x.2 = true ∧ x.2 ≠ .cmd := by decide
    exact hmap x
  · obtain ⟨k, r⟩ := x
    rintro ⟨hoff : k = regOffset r, hwritable, hcmd⟩
    subst hoff
    cases r with
    | cmd => exact absurd rfl hcmd
    | status | crc | lrc | excode | cap => cases hwritable
    | mode | addr | fc | plen | flen => decide

theorem eq_regAddr {a : BlockAddr} {r : RegName} (h : a.toNat = regOffset r) : a = BitVec.ofNat 17 (regOffset r) :=
  BitVec.eq_of_toNat_eq (h.trans (regOffset_toNat r).symm)

/-- No other width and no other offset reaches a readable register. -/
theorem not_readable_of_not_allowed {a n : Nat} (h : n ≠ 4 ∨ a ∉ allowedReads.map Prod.fst) {r : RegName}
    (hr : regAccess? a n = some r) : regReadable r = false := by
  obtain ⟨hn, hoff⟩ := regAccess?_eq_some hr
  have hout := h.resolve_left (not_not_intro hn)
  by_contra hreadable
  have hmem : (a, r) ∈ allowedReads := mem_allowedReads_iff.2 ⟨hoff.symm, by simpa using hreadable⟩
  exact hout (List.mem_map_of_mem (f := Prod.fst) hmem)

/-- No other width and no other offset reaches a writable register. -/
theorem not_writable_of_not_allowed {a n : Nat} (h : n ≠ 4 ∨ (a ≠ 0x00 ∧ a ∉ allowedWrites.map Prod.fst))
    {r : RegName} (hr : regAccess? a n = some r) : regWritable r = false := by
  obtain ⟨hn, hoff⟩ := regAccess?_eq_some hr
  obtain ⟨hzero, hout⟩ := h.resolve_left (not_not_intro hn)
  by_contra hwritable
  have hcmd : r ≠ .cmd := fun hc => hzero (hoff.symm.trans (congrArg regOffset hc))
  have hmem : (a, r) ∈ allowedWrites := mem_allowedWrites_iff.2 ⟨hoff.symm, by simpa using hwritable, hcmd⟩
  exact hout (List.mem_map_of_mem (f := Prod.fst) hmem)

/-- Settles O33: the allowed accesses are those of the map's readable and writable registers, and below the buffer window
nothing else is admitted. -/
theorem registerPageAccessesFollowTheMap : Obligations.RegisterPageAccessesFollowTheMap := by
  intro s a n v rest hpage
  have hwin : windowAccess? s a.toNat n = none :=
    windowAccess?_eq_none_of_lt (Nat.lt_trans hpage (by decide : 0x2C < windowBase))
  refine ⟨fun h => ⟨?_, ?_⟩, fun h => ⟨?_, ?_, ?_⟩⟩
  · rintro x hx rfl ha
    obtain ⟨hoff, hreadable⟩ := mem_allowedReads_iff.1 hx
    obtain rfl := eq_regAddr (ha.trans hoff)
    exact step_readReg hreadable h
  · intro hout
    exact step_read_refused (fun r => not_readable_of_not_allowed hout) hwin h
  · rintro rfl ha
    obtain rfl : a = 0x00000#17 := BitVec.eq_of_toNat_eq ha
    exact step_cmdWrite h.1 h.2
  · rintro x hx rfl ha
    obtain ⟨hoff, hwritable, hcmd⟩ := mem_allowedWrites_iff.1 hx
    obtain rfl := eq_regAddr (ha.trans hoff)
    exact step_writeReg hwritable hcmd h
  · intro hout
    exact step_write_refused (fun r => not_writable_of_not_allowed hout) hwin h

/-! ## The buffer window (20_memory.md R36) -/

/-- A window access addresses no register. -/
theorem regAccess?_eq_none_of_window {s : State} {a n i : Nat} (h : windowAccess? s a n = some i) :
    regAccess? a n = none := by
  obtain ⟨ha, -⟩ := windowAccess?_eq_some h
  simp only [windowBase] at ha
  exact regAccess?_eq_none (by omega)

theorem busRead_window {a : BlockAddr} {n i : Nat} {s : State} (h : windowAccess? s a.toNat n = some i) :
    busRead a n s = useBytes s.fbuf i n fun bs => .next { s with reply := .data (packBytes bs) } := by
  simp [busRead, regAccess?_eq_none_of_window h, h]

theorem step_readWindow {s : State} {a : BlockAddr} {n i : Nat} {rest : List HostEvent}
    (hw : windowAccess? s a.toNat n = some i) (h : Takes s (.read a n) rest) :
    step s = useBytes s.fbuf i n fun bs => .next { s with pending := rest, reply := .data (packBytes bs) } :=
  (step_read h.1 h.2).trans (busRead_window hw)

theorem step_writeWindow {s : State} {a : BlockAddr} {n i : Nat} {v : Word} {rest : List HostEvent}
    (hw : windowAccess? s a.toNat n = some i) (h : Takes s (.write a n v) rest) :
    step s = .next { s with pending := rest, reply := .done, fbuf := s.fbuf.writeRange i (splitBytes n v) } :=
  (step_write h.1 h.2).trans (congrArg runAccepted (busWrite_window (s := { s with pending := rest })
    (regAccess?_eq_none_of_window hw) hw))

theorem readRange_of_bytesAt {s : State} {i : Nat} {bs : List Byte} (h : BytesAt s i bs) :
    s.fbuf.readRange i bs.length = .ok bs := (readRange_ok_iff _ _ _ _).2 ⟨rfl, h⟩

/-- The converse of `readRange_error`: there is one lowest unwritten index. -/
theorem readRange_of_firstUnwritten {s : State} {i n j : Nat} (h : FirstUnwritten s i n j) :
    s.fbuf.readRange i n = .error j := by
  obtain ⟨hij, hjn, hj, hbelow⟩ := h
  cases hr : s.fbuf.readRange i n with
  | ok bs =>
    obtain ⟨hlen, hbytes⟩ := (readRange_ok_iff _ _ _ _).1 hr
    have hwritten := hbytes (j - i) (by omega)
    rw [Nat.add_sub_cancel' hij, hj] at hwritten
    cases hwritten
  | error k =>
    obtain ⟨hik, -, hk, hbelow'⟩ := readRange_error hr
    rcases Nat.lt_trichotomy j k with hlt | rfl | hlt
    · simpa [hj] using hbelow' j hij hlt
    · rfl
    · simpa [hk] using hbelow k hik hlt

/-- Settles O37: an admitted access moves the bytes of its range, and a window address that is not admitted reaches
neither the buffer nor a register. -/
theorem windowAccessesMoveWholeAlignedRanges : Obligations.WindowAccessesMoveWholeAlignedRanges := by
  intro s a n i v rest ha
  refine ⟨fun hadm => ?_, fun hout => ?_⟩
  · have hw : windowAccess? s a.toNat n = some i := windowAccess?_of_admitted ha hadm
    refine ⟨fun h => ⟨?_, ?_⟩, fun h => ⟨_, step_writeWindow hw h, fun k hk => ?_, fun j hj => ?_, rfl⟩⟩
    · rintro bs rfl hbytes
      obtain ⟨hbound, hget⟩ := packBytes_spec bs (by omega)
      refine ⟨packBytes bs, ?_, hbound, hget⟩
      rw [step_readWindow hw h, useBytes_of_ok (readRange_of_bytesAt hbytes)]
    · intro j hj
      rw [step_readWindow hw h, useBytes, readRange_of_firstUnwritten hj]
    · have hlen : k < (splitBytes n v).length := by simpa using hk
      exact (read_writeRange_inside s.fbuf i _ hlen).trans (congrArg some (splitBytes_getElem n v k hlen))
    · exact read_writeRange_other _ _ _ (by simpa using hj)
  · have hwin : windowAccess? s a.toNat n = none := by
      refine windowAccess?_of_refused fun i' ha' => ?_
      obtain rfl : i' = i := by omega
      exact hout
    have hreg : regAccess? a.toNat n = none := regAccess?_eq_none (by omega)
    exact ⟨step_read_refused (by simp [hreg]) hwin, step_write_refused (by simp [hreg]) hwin⟩

/-! ## What an access changes (20_memory.md R38) -/

/-- An answered read answers the same again in the state it left, whatever the host does next. -/
theorem busRead_again {a : BlockAddr} {n : Nat} {s t : State} (h : busRead a n s = .next t) (p : List HostEvent) :
    busRead a n { t with pending := p } = .next { t with pending := p } := by
  rcases busRead_next h with ⟨r, hr, hreadable, rfl⟩ | ⟨i, bs, hi, hbs, rfl⟩
  · simp [busRead, hr, hreadable, readReg_of_port]
  · exact (busRead_window (s := { s with pending := p, reply := .data (packBytes bs) }) hi).trans
      (useBytes_of_ok hbs _)

theorem busRead_keeps {a : BlockAddr} {n : Nat} {s t : State} (h : busRead a n s = .next t) :
    t = { s with reply := t.reply } := by
  rcases busRead_next h with ⟨r, -, -, rfl⟩ | ⟨i, bs, -, -, rfl⟩ <;> rfl

/-- A write elsewhere than at CMD that completes is a store of a read-write register or of window bytes. -/
theorem step_plainWrite {s t : State} {a : BlockAddr} {n : Nat} {v : Word} {rest : List HostEvent}
    (h : Takes s (.write a n v) rest) (hne : a ≠ 0x00000#17) (hstep : step s = .next t) :
    (∃ r : RegName, regWritable r = true ∧ r ≠ .cmd ∧ regAccess? a.toNat n = some r ∧
      t = { writeReg r v s with pending := rest, reply := .done }) ∨
    (∃ i, windowAccess? s a.toNat n = some i ∧
      t = { s with pending := rest, reply := .done, fbuf := s.fbuf.writeRange i (splitBytes n v) }) := by
  rcases busWrite_cases a n v { s with pending := rest } with
    ⟨hcmd, -⟩ | ⟨r, hc, hr, hwritable, -⟩ | ⟨i, hi, -⟩ | hrefused
  · exact absurd (eq_of_regAccess?_cmd hcmd).1 hne
  · obtain ⟨rfl, hoff⟩ := regAccess?_eq_some hr
    obtain rfl := eq_regAddr hoff.symm
    exact .inl ⟨r, hwritable, hc, hr, Host.Outcome.next.inj (hstep.symm.trans (step_writeReg hwritable hc h))⟩
  · exact .inr ⟨i, hi, Host.Outcome.next.inj (hstep.symm.trans (step_writeWindow hi h))⟩
  · rw [step_write h.1 h.2, hrefused] at hstep
    cases hstep

/-- The port is no command's: what the host does next, the reset input and the latest answer are kept. -/
theorem exec_keeps_port {i : Instr} {s t : State} (h : exec i s = .next t) :
    t.pending = s.pending ∧ t.inReset = s.inReset ∧ t.reply = s.reply := by
  cases i with
  | crcInit | crcByte | lrcInit | lrcByte | clrErr => cases h; exact ⟨rfl, rfl, rfl⟩
  | crcBuf | lrcBuf =>
    rcases useBuffer_next h with ⟨-, rfl⟩ | ⟨-, bs, -, h⟩
    · exact ⟨rfl, rfl, rfl⟩
    · cases h; exact ⟨rfl, rfl, rfl⟩
  | encQuery | encResp =>
    rcases encodePayload_next h with ⟨-, rfl⟩ | ⟨-, bs, -, rfl⟩ <;> simp
  | encExc code =>
    obtain ⟨bs, -, rfl⟩ := execEncExc_next h
    simp
  | decode =>
    rcases execDecode_next h with ⟨-, rfl⟩ | ⟨-, -, rfl⟩ | ⟨-, -, bs, cs, -, -, ⟨-, rfl⟩ | ⟨-, a, f, e, -, -, -, rfl⟩⟩
    all_goals simp

theorem runCommand_keeps_port {w : Word} {s t : State} (h : runCommand w s = .next t) :
    t.pending = s.pending ∧ t.inReset = s.inReset ∧ t.reply = s.reply := by
  rcases runCommand_ends h with ⟨e, rfl⟩ | ⟨i, -, h, -⟩
  · exact ⟨rfl, rfl, rfl⟩
  · exact exec_keeps_port h

/-- Settles O39: a read writes the port's answer alone, a plain write is one store, and a CMD write leaves the port ready to
run the same word again; LRC_BYTE of 1 adds to SUM both times. -/
theorem readsAreIdempotentAndCommandWritesAreNot : Obligations.ReadsAreIdempotentAndCommandWritesAreNot := by
  refine ⟨?_, ?_, ?_, 0x105#32, State.reset, _, _, rfl, rfl, by decide⟩
  · intro s t a n rest ⟨hreset, hp⟩ hstep
    rw [step_read hreset hp] at hstep
    have hkeeps := busRead_keeps hstep
    have hreset' : t.inReset = false := (congrArg State.inReset hkeeps).trans hreset
    have hp' : t.pending = .read a n :: rest := congrArg State.pending hkeeps
    exact ⟨hkeeps, (step_read hreset' hp').trans (busRead_again hstep rest)⟩
  · intro s t a n v rest h hne hstep
    rcases step_plainWrite h hne hstep with ⟨r, hwritable, hc, hr, ht⟩ | ⟨i, hi, ht⟩
    · have hmem : (regOffset r, r) ∈ allowedWrites := mem_allowedWrites_iff.2 ⟨rfl, hwritable, hc⟩
      exact .inl ⟨r, List.mem_map_of_mem (f := Prod.snd) hmem, hr, ht⟩
    · exact .inr ⟨i, regAccess?_eq_none_of_window hi, hi, ht⟩
  · intro s t w rest ⟨hreset, hp⟩ hstep
    rw [step_cmdWrite hreset hp] at hstep
    obtain ⟨hp', hreset', -⟩ := runCommand_keeps_port hstep
    exact step_cmdWrite (hreset'.trans hreset) hp'

end Sys2Proof.Proofs
end

section
/-! The encoding family: the opcode map and the decoder select the same words, illegal words change STATUS only, and the
pseudo-instructions are their expansions. -/

namespace Sys2Proof.Proofs

open Sys2Proof.Machine Sys2Proof.Claims

/-! ## A command's word and the decoder (30_encoding.md R47, R53) -/

/-- No bit of a command is lost in its word. -/
theorem decodeCommand_encodeCommand (i : Instr) : decodeCommand (encodeCommand i) = .ok i := by
  unfold decodeCommand encodeCommand
  rw [splitCommand_joinCommand]
  cases i <;> rfl

/-- A word that decodes is the word of the command it decodes to. -/
theorem eq_encodeCommand_of_decodeCommand {w : Word} {i : Instr} (h : decodeCommand w = .ok i) :
    w = encodeCommand i := by
  rw [← joinCommand_splitCommand w, splitCommand_of_decodeCommand h, encodeCommand]

/-! ## The rows of the opcode map (30_encoding.md R49) -/

theorem selects_iff {r : OpcodeRow} {w : Word} : r.selects w = true ↔ w &&& r.mask = r.pattern := beq_iff_eq

/-- Every row compares the whole of OPC, and no two rows ask for the same one: so no word is selected twice. -/
theorem opcodeTable_selects_pairwise (w : Word) :
    opcodeTable.Pairwise fun r r' => ¬(r.selects w = true ∧ r'.selects w = true) := by
  have hmask : ∀ r ∈ opcodeTable, r.mask &&& 0xFF#32 = 0xFF#32 := by decide
  have hopc : opcodeTable.Pairwise fun r r' => r.pattern &&& 0xFF#32 ≠ r'.pattern &&& 0xFF#32 := by decide
  have hsel : ∀ r ∈ opcodeTable, r.selects w = true → r.pattern &&& 0xFF#32 = w &&& 0xFF#32 := by
    intro r hr h
    rw [← selects_iff.1 h, BitVec.and_assoc, hmask r hr]
  refine hopc.imp_of_mem fun {r r'} hr hr' hne ⟨h, h'⟩ => hne ?_
  rw [hsel r hr h, hsel r' hr' h']

/-- A row without a byte operand compares every bit, so it selects its command's own word and no other. -/
theorem decodeCommand_of_selects_whole {m : String} {p w : Word} {f : Byte → Instr} (i : Instr)
    (hp : p = encodeCommand i) (h : (OpcodeRow.mk m p 0xFFFFFFFF#32 f).selects w = true) :
    decodeCommand w = .ok i := by
  have hw : w &&& BitVec.allOnes 32 = p := selects_iff.1 h
  rw [← BitVec.and_allOnes (x := w), hw, hp, decodeCommand_encodeCommand]

/-- The mask of a row with a byte operand clears DATA and keeps the other two fields. -/
theorem byteMask_fields (w : Word) :
    w &&& 0xFFFF00FF#32 = joinCommand { splitCommand w with data := 0x00#8 } := by
  conv_lhs => rw [← joinCommand_splitCommand w]
  unfold joinCommand
  rw [show 0xFFFF00FF#32 = BitVec.allOnes 16 ++ 0x00#8 ++ BitVec.allOnes 8 from rfl, BitVec.and_append,
    BitVec.and_append]
  simp only [BitVec.and_allOnes, BitVec.and_zero]

/-- A row with a byte operand compares RSV and OPC alone, so it selects its command's word for the word's own DATA byte. -/
theorem decodeCommand_of_selects_byte {m : String} {p w : Word} (make : Byte → Instr) (opc : Byte)
    (hp : p = joinCommand ⟨opc, 0x00#8, 0x0000#16⟩) (hmake : ∀ b, (make b).fields = ⟨opc, b, 0x0000#16⟩)
    (h : (OpcodeRow.mk m p 0xFFFF00FF#32 make).selects w = true) :
    decodeCommand w = .ok (make (w.extractLsb' 8 8)) := by
  have hjoin : joinCommand { splitCommand w with data := 0x00#8 } = joinCommand ⟨opc, 0x00#8, 0x0000#16⟩ := by
    rw [← byteMask_fields, ← hp]
    exact selects_iff.1 h
  have hfields := congrArg splitCommand hjoin
  rw [splitCommand_joinCommand, splitCommand_joinCommand, CommandWord.mk.injEq] at hfields
  obtain ⟨hopc, -, hrsv⟩ := hfields
  have hw : w = encodeCommand (make (w.extractLsb' 8 8)) := by
    rw [encodeCommand, hmake, ← hopc, ← hrsv]
    exact (joinCommand_splitCommand w).symm
  conv_lhs => rw [hw, decodeCommand_encodeCommand]

/-- The command that a selected row names is the one the decoder reads, row by row. -/
theorem decodeCommand_of_selects (w : Word) :
    ∀ r ∈ opcodeTable, r.selects w = true → decodeCommand w = .ok (r.make (w.extractLsb' 8 8)) := by
  simp only [opcodeTable, List.forall_mem_cons]
  exact ⟨decodeCommand_of_selects_whole .crcInit rfl,
    decodeCommand_of_selects_byte .crcByte 0x02#8 rfl fun _ => rfl,
    decodeCommand_of_selects_whole .crcBuf rfl,
    decodeCommand_of_selects_whole .lrcInit rfl,
    decodeCommand_of_selects_byte .lrcByte 0x05#8 rfl fun _ => rfl,
    decodeCommand_of_selects_whole .lrcBuf rfl,
    decodeCommand_of_selects_whole .encQuery rfl,
    decodeCommand_of_selects_whole .encResp rfl,
    decodeCommand_of_selects_byte .encExc 0x12#8 rfl fun _ => rfl,
    decodeCommand_of_selects_whole .decode rfl,
    decodeCommand_of_selects_whole .clrErr rfl,
    fun _ h => nomatch h⟩

/-- Every command's word is selected by some row. -/
theorem exists_row_selects_encodeCommand (i : Instr) : ∃ r ∈ opcodeTable, r.selects (encodeCommand i) = true := by
  have hrow : Laws.TableRow.Statement i := by
    cases i with
    | crcInit => exact Laws.TableRow.crcInit
    | crcByte b => exact Laws.TableRow.crcByte b
    | crcBuf => exact Laws.TableRow.crcBuf
    | lrcInit => exact Laws.TableRow.lrcInit
    | lrcByte b => exact Laws.TableRow.lrcByte b
    | lrcBuf => exact Laws.TableRow.lrcBuf
    | encQuery => exact Laws.TableRow.encQuery
    | encResp => exact Laws.TableRow.encResp
    | encExc code => exact Laws.TableRow.encExc code
    | decode => exact Laws.TableRow.decode
    | clrErr => exact Laws.TableRow.clrErr
  obtain ⟨-, r, hr, hsel, -⟩ := hrow
  exact ⟨r, hr, hsel⟩

/-- The decoder rejects every word that it does not decode. -/
theorem exists_error_of_ne_ok {w : Word} (h : ∀ i, decodeCommand w ≠ .ok i) : ∃ e, decodeCommand w = .error e := by
  cases hd : decodeCommand w with
  | ok i => exact absurd hd (h i)
  | error e => exact ⟨e, rfl⟩

/-- A word that no row selects is no command's word. -/
theorem decodeCommand_of_not_selects {w : Word} (h : ∀ r ∈ opcodeTable, r.selects w = false) :
    ∃ e, decodeCommand w = .error e := by
  refine exists_error_of_ne_ok fun i hd => ?_
  obtain ⟨r, hr, hsel⟩ := exists_row_selects_encodeCommand i
  rw [← eq_encodeCommand_of_decodeCommand hd, h r hr] at hsel
  cases hsel

/-- Settles O3: the rows differ in OPC, each selects the words of its own command only, and together they select every
command's word. -/
theorem opcodeMapSelectsAtMostOneRowAndDecodes : Obligations.OpcodeMapSelectsAtMostOneRowAndDecodes :=
  ⟨opcodeTable_selects_pairwise, decodeCommand_of_selects, fun _ => decodeCommand_of_not_selects⟩

/-! ## Illegal words (30_encoding.md R50 to R52, 42_control.md R79) -/

theorem not_reservedOpc_opc (i : Instr) : ¬ReservedOpc i.opc.toNat := by
  unfold ReservedOpc
  cases i <;> simp [Instr.opc]

theorem data_eq_zero_of_plainOpc {i : Instr}
    (h : i.opc ∈ [0x01#8, 0x03#8, 0x04#8, 0x06#8, 0x10#8, 0x11#8, 0x20#8, 0x30#8]) : i.data = 0#8 := by
  cases i with
  | crcByte | lrcByte | encExc => simp [Instr.opc] at h
  | _ => rfl

/-- A reserved OPC, RSV ≠ 0, or DATA ≠ 0 on a command without a byte operand: no command has such fields. -/
theorem decodeCommand_of_illegalFields {w : Word}
    (h : ReservedOpc (w.extractLsb' 0 8).toNat ∨ w.extractLsb' 16 16 ≠ 0#16 ∨
      (w.extractLsb' 0 8 ∈ [0x01#8, 0x03#8, 0x04#8, 0x06#8, 0x10#8, 0x11#8, 0x20#8, 0x30#8] ∧
        w.extractLsb' 8 8 ≠ 0#8)) :
    ∃ e, decodeCommand w = .error e := by
  refine exists_error_of_ne_ok fun i hd => ?_
  obtain ⟨hopc, hdata, hrsv⟩ := fields_of_decodeCommand hd
  rw [hopc, hdata] at h
  rcases h with hreserved | hne | ⟨hplain, hne⟩
  · exact not_reservedOpc_opc i hreserved
  · exact hne hrsv
  · exact hne (data_eq_zero_of_plainOpc hplain)

theorem runCommand_of_not_selects {w : Word} (h : ∀ r ∈ opcodeTable, r.selects w = false) (s : State) :
    runCommand w s = .next (reported 4#4 s) := by
  obtain ⟨e, he⟩ := decodeCommand_of_not_selects h
  exact runCommand_of_error he s

/-- STATUS after an illegal command, from STATUS clear: ERR, ERRACC and code 4; EXCF stays clear. -/
theorem readReg_status_reported_illegal {s : State} (h : readReg .status s = 0x00000000#32) :
    readReg .status (reported 4#4 s) = 0x00000043#32 := by
  have hexcf : s.excf = false := by
    have hbit : (statusWord s).getLsbD 2 = s.excf := statusWord_getLsbD s 2
    rw [← hbit, show statusWord s = 0#32 from h]
    rfl
  simp only [readReg, statusWord, reported, hexcf]
  rfl

/-- Settles O5: an illegal word does not decode, so it ends in `raise IllegalCommand`, whose one write is STATUS. -/
theorem illegalWordsChangeOnlyStatus : Obligations.IllegalWordsChangeOnlyStatus := by
  refine ⟨?_, fun s w h => runCommand_of_not_selects h s, ?_, fun s => runCommand_of_ok (by decide) s⟩
  · intro s w rest ⟨hreset, hp⟩ hillegal
    obtain ⟨e, he⟩ := decodeCommand_of_illegalFields hillegal
    rw [step_cmdWrite hreset hp, runCommand_of_error he]
    rfl
  · intro w hw s hs
    have hnone : ∀ w ∈ [0x00000000#32, 0x00010001#32, 0x00000101#32, 0x00000007#32],
        ∀ r ∈ opcodeTable, r.selects w = false := by
      simp only [List.forall_mem_cons]
      exact ⟨by decide, by decide, by decide, by decide, fun _ h => nomatch h⟩
    exact ⟨_, runCommand_of_not_selects (hnone w hw) s, readReg_status_reported_illegal hs⟩

/-! ## The pseudo-instructions (30_encoding.md R55) -/

/-- Nothing after a piece leaves the piece. -/
@[simp] theorem asmThen_nil (x : Option (List HostEvent)) : asmThen x (some []) = x := by
  cases x <;> simp [asmThen]

/-- A list of byte operands is one line after the other. -/
theorem asmByteCommands_eq_assembleProgram {make : Byte → Instr} {line : Nat → AsmLine}
    (hline : ∀ b, assemble (line b) = asmByteCommand make b) (bs : List Nat) :
    asmByteCommands make bs = assembleProgram (bs.map line) := by
  induction bs with
  | nil => rfl
  | cons b bs ih => simp [asmByteCommands, assembleProgram, hline, ih]

/-- A list of buffer bytes is one `WRB` after the other, at rising indices. -/
theorem asmWriteBytes_eq_assembleProgram (i : Nat) (bs : List Nat) :
    asmWriteBytes i bs = assembleProgram (bs.mapIdx fun k x => .wrb (i + k) x) := by
  induction bs generalizing i with
  | nil => rfl
  | cons b bs ih => simp [asmWriteBytes, assembleProgram, assemble, ih, Nat.add_assoc, Nat.add_comm 1]

/-- Settles O56: the lists by the two lemmas above; in each other row the assembler's pieces are the row's lines. -/
theorem pseudoInstructionsExpandAsTheTableShows : Obligations.PseudoInstructionsExpandAsTheTableShows := by
  refine ⟨fun i b bs => asmWriteBytes_eq_assembleProgram i (b :: bs), fun b bs => ⟨?_, ?_⟩, ⟨rfl, rfl⟩, ?_, ?_, ?_⟩
  · exact congrArg (asmThen _) (asmByteCommands_eq_assembleProgram (fun _ => rfl) (b :: bs))
  · exact congrArg (asmThen _) (asmByteCommands_eq_assembleProgram (fun _ => rfl) (b :: bs))
  · intro a f p ps
    simp [assembleProgram, assemble]
  · intro a f
    simp [assembleProgram, assemble, asmWriteBytes]
  · intro b bs
    simp [assembleProgram, assemble]

end Sys2Proof.Proofs
end

section
/-! The checksum family: the six commands of the checksum engine, each with its word, and what a checksum depends on. -/

namespace Sys2Proof.Proofs

open Sys2Proof.Machine Sys2Proof.Claims

/-! ## The words of a command, own and illegal (30_encoding.md R51, R54) -/

theorem wordRuns_of_eq_encodeCommand {w : Word} {i : Instr} (h : w = encodeCommand i) : WordRuns w i :=
  runCommand_of_ok (h ▸ decodeCommand_encodeCommand i)

/-- RSV ≠ 0 is illegal with every OPC; DATA ≠ 0 is, with the OPC of a command without a byte operand. -/
theorem illegalWithOpc_of {opc : Byte} {takesByte : Bool}
    (h : takesByte = false → opc ∈ [0x01#8, 0x03#8, 0x04#8, 0x06#8, 0x10#8, 0x11#8, 0x20#8, 0x30#8]) :
    IllegalWithOpc opc takesByte := by
  rintro w s rfl hillegal
  obtain ⟨e, he⟩ := decodeCommand_of_illegalFields
    (.inr (hillegal.imp_right fun ⟨hplain, hdata⟩ => ⟨h hplain, hdata⟩))
  exact runCommand_of_error he s

/-! ## The buffer range of `*_BUF` (40_checksum.md R65, R68) -/

/-- Using a range with an unwritten byte stops on the fault of an unwritten byte of the range. -/
theorem useBytes_stopsOnUnwritten {s : State} {i n k : Nat} (hik : i ≤ k) (hkn : k < i + n)
    (hk : s.fbuf.read k = none) (next : List Byte → Out) : StopsOnUnwritten (useBytes s.fbuf i n next) s i n := by
  cases hr : s.fbuf.readRange i n with
  | ok bs =>
    obtain ⟨hlen, hbytes⟩ := (readRange_ok_iff _ _ _ _).1 hr
    have hwritten := hbytes (k - i) (by omega)
    rw [Nat.add_sub_cancel' hik, hk] at hwritten
    cases hwritten
  | error j =>
    obtain ⟨hij, hjn, hj, -⟩ := readRange_error hr
    exact ⟨j, hij, hjn, hj, by simp [useBytes, hr]⟩

theorem useBuffer_of_fits {s : State} (h : s.flen.toNat ≤ capacity s) (next : List Byte → Out) :
    useBuffer s next = useBytes s.fbuf 0 s.flen.toNat next := by
  rw [useBuffer, if_neg (by omega)]

theorem useBuffer_of_bytesAt {s : State} {bs : List Byte} (hlen : s.flen.toNat = bs.length)
    (hcap : bs.length ≤ capacity s) (h : BytesAt s 0 bs) (next : List Byte → Out) :
    useBuffer s next = next bs := by
  rw [useBuffer_of_fits (hlen ▸ hcap), hlen, useBytes_of_ok (readRange_of_bytesAt h)]

theorem useBuffer_stopsOnUnwritten {s : State} {k : Nat} (hcap : s.flen.toNat ≤ capacity s) (hkn : k < s.flen.toNat)
    (hk : s.fbuf.read k = none) (next : List Byte → Out) :
    StopsOnUnwritten (useBuffer s next) s 0 s.flen.toNat := by
  rw [useBuffer_of_fits hcap]
  exact useBytes_stopsOnUnwritten (Nat.zero_le k) (by omega) hk next

/-- A `*_BUF` that ends without an error has gone on with the bytes FBUF[0..FLEN). -/
theorem useBuffer_next_of_ok {s t : State} {next : List Byte → Out} (h : useBuffer s next = .next t)
    (herr : t.err = false) : ∃ bs, s.fbuf.readRange 0 s.flen.toNat = .ok bs ∧ next bs = .next t := by
  rcases useBuffer_next h with ⟨-, rfl⟩ | ⟨-, hbytes⟩
  · simp at herr
  · exact hbytes

/-- Two uses of the buffer range, both without an error, in states that agree on FLEN and FBUF[0..FLEN): both have gone
on with the same bytes. -/
theorem useBuffer_same_bytes {s s' t t' : State} {next next' : List Byte → Out} (hlen : s.flen = s'.flen)
    (hagree : ∀ j, j < s.flen.toNat → s.fbuf.read j = s'.fbuf.read j)
    (h : useBuffer s next = .next t) (h' : useBuffer s' next' = .next t')
    (herr : t.err = false) (herr' : t'.err = false) : ∃ bs, next bs = .next t ∧ next' bs = .next t' := by
  obtain ⟨bs, hbs, hnext⟩ := useBuffer_next_of_ok h herr
  obtain ⟨bs', hbs', hnext'⟩ := useBuffer_next_of_ok h' herr'
  have hrange : s.fbuf.readRange 0 s.flen.toNat = s'.fbuf.readRange 0 s'.flen.toNat := by
    rw [← hlen]
    exact readRange_congr fun k _ hk => hagree k (by omega)
  obtain rfl : bs = bs' := by simpa [hrange, hbs'] using hbs.symm
  exact ⟨bs, hnext, hnext'⟩

/-! ## The streaming forms (40_checksum.md R61) -/

/-- CRC_BYTE commands fold their bytes into CRC, after a command that succeeded. -/
theorem runCommands_crcBytes (bs : List Byte) (s : State) :
    runCommands (bs.map .crcByte) (setSuccess s) = .next (setSuccess { s with crc := crc16From s.crc bs }) := by
  induction bs generalizing s with
  | nil => rfl
  | cons b bs ih => exact ih { s with crc := crc16Step s.crc b }

/-- LRC_BYTE commands add their bytes to SUM, after a command that succeeded. -/
theorem runCommands_lrcBytes (bs : List Byte) (s : State) :
    runCommands (bs.map .lrcByte) (setSuccess s) = .next (setSuccess { s with sum := sum8From s.sum bs }) := by
  induction bs generalizing s with
  | nil => rfl
  | cons b bs ih => exact ih { s with sum := sumStep s.sum b }

theorem runCommands_crcStream (bs : List Byte) (s : State) :
    runCommands (.crcInit :: bs.map .crcByte) s = .next (setSuccess { s with crc := crc16 bs }) :=
  runCommands_crcBytes bs { s with crc := 0xFFFF#16 }

theorem runCommands_lrcStream (bs : List Byte) (s : State) :
    runCommands (.lrcInit :: bs.map .lrcByte) s = .next (setSuccess { s with sum := sum8 bs }) :=
  runCommands_lrcBytes bs { s with sum := 0x00#8 }

/-! ## What a checksum depends on (40_checksum.md R61) -/

/-- The LRC commands leave CRC alone. -/
theorem exec_lrc_keeps_crc {i : Instr} {s t : State} (hi : i = .lrcInit ∨ (∃ b, i = .lrcByte b) ∨ i = .lrcBuf)
    (h : exec i s = .next t) : t.crc = s.crc := by
  rcases hi with rfl | ⟨b, rfl⟩ | rfl
  · cases h; rfl
  · cases h; rfl
  · rcases useBuffer_next h with ⟨-, rfl⟩ | ⟨-, bs, -, hnext⟩
    · rfl
    · cases hnext; rfl

/-- The CRC commands leave SUM alone. -/
theorem exec_crc_keeps_sum {i : Instr} {s t : State} (hi : i = .crcInit ∨ (∃ b, i = .crcByte b) ∨ i = .crcBuf)
    (h : exec i s = .next t) : t.sum = s.sum := by
  rcases hi with rfl | ⟨b, rfl⟩ | rfl
  · cases h; rfl
  · cases h; rfl
  · rcases useBuffer_next h with ⟨-, rfl⟩ | ⟨-, bs, -, hnext⟩
    · rfl
    · cases hnext; rfl

/-- A host write that is no command leaves both accumulators alone. -/
theorem step_plainWrite_keeps_checksums {s t : State} {a : BlockAddr} {n : Nat} {v : Word} {rest : List HostEvent}
    (h : Takes s (.write a n v) rest) (hne : a ≠ 0x00000#17) (hstep : step s = .next t) :
    t.crc = s.crc ∧ t.sum = s.sum := by
  rcases step_plainWrite h hne hstep with ⟨r, -, -, -, rfl⟩ | ⟨i, -, rfl⟩
  · exact ⟨writeReg_crc r v s, writeReg_sum r v s⟩
  · exact ⟨rfl, rfl⟩

/-- Settles O10: a stream leaves the checksum of its bytes whatever the state before it, and the buffer forms go on with
the bytes of the range alone. -/
theorem checksumsDependOnlyOnTheirBytes : Obligations.ChecksumsDependOnlyOnTheirBytes := by
  refine ⟨?_, ?_, fun i s t => exec_lrc_keeps_crc, fun i s t => exec_crc_keeps_sum,
    fun s t a n v rest => step_plainWrite_keeps_checksums, ?_, ?_⟩
  · intro bs s s' t t' h h'
    rw [runCommands_crcStream] at h h'
    cases h
    cases h'
    rfl
  · intro bs s s' t t' h h'
    rw [runCommands_lrcStream] at h h'
    cases h
    cases h'
    rfl
  · intro s s' t t' hlen hagree h h' herr herr'
    obtain ⟨bs, hnext, hnext'⟩ := useBuffer_same_bytes hlen hagree h h' herr herr'
    cases hnext
    cases hnext'
    rfl
  · intro s s' t t' hlen hagree h h' herr herr'
    obtain ⟨bs, hnext, hnext'⟩ := useBuffer_same_bytes hlen hagree h h' herr herr'
    cases hnext
    cases hnext'
    rfl

/-! ## The six commands (40_checksum.md R63 to R68) -/

/-- Settles O14: CRC_BUF is `useBuffer`, in each of its three outcomes. -/
theorem crcBufComputesOverTheFirstFlenBytes : Obligations.CrcBufComputesOverTheFirstFlenBytes :=
  ⟨fun _ _ hlen hcap h => useBuffer_of_bytesAt hlen hcap h _, fun _ h => useBuffer_tooLarge h _,
    fun _ _ hcap hkn hk => useBuffer_stopsOnUnwritten hcap hkn hk _,
    wordRuns_of_eq_encodeCommand rfl, illegalWithOpc_of (by decide)⟩

/-- Settles O17: LRC_BUF is `useBuffer`, in each of its three outcomes. -/
theorem lrcBufSumsTheFirstFlenBytes : Obligations.LrcBufSumsTheFirstFlenBytes :=
  ⟨fun _ _ hlen hcap h => useBuffer_of_bytesAt hlen hcap h _, fun _ h => useBuffer_tooLarge h _,
    fun _ _ hcap hkn hk => useBuffer_stopsOnUnwritten hcap hkn hk _,
    wordRuns_of_eq_encodeCommand rfl, illegalWithOpc_of (by decide)⟩

/-- Settles O12: CRC_INIT loads a constant, so a second one changes nothing more. -/
theorem crcInitLoadsTheInitialValue : Obligations.CrcInitLoadsTheInitialValue := by
  refine ⟨fun s => rfl, ?_, wordRuns_of_eq_encodeCommand rfl, illegalWithOpc_of (by decide)⟩
  intro s t h
  cases h
  rfl

/-- Settles O13, the step values of R64 by evaluation. -/
theorem crcByteFoldsItsByte : Obligations.CrcByteFoldsItsByte :=
  ⟨fun _ _ => rfl, fun _ => wordRuns_of_eq_encodeCommand rfl, illegalWithOpc_of (by decide),
    by decide, by decide, by decide, by decide⟩

/-- Settles O15: the LRC register shows the cleared SUM and its LRC value 0. -/
theorem lrcInitClearsTheSum : Obligations.LrcInitClearsTheSum := by
  refine ⟨fun s => rfl, ?_, wordRuns_of_eq_encodeCommand rfl, illegalWithOpc_of (by decide)⟩
  intro s t h
  cases h
  have hclear : lrcWord 0x00#8 = 0x00000000#32 := by decide
  exact hclear

/-- Settles O16: the addition of bytes is that of their numbers modulo 256, and the LRC register shows SUM over its LRC
value. -/
theorem lrcByteAddsModulo256 : Obligations.LrcByteAddsModulo256 := by
  refine ⟨?_, fun b => wordRuns_of_eq_encodeCommand rfl, illegalWithOpc_of (by decide)⟩
  intro s b
  obtain ⟨hsum, hlrc, -⟩ := lrcWord_fields (s.sum + b)
  exact ⟨_, rfl, BitVec.toNat_add s.sum b, rfl, hsum, (congrArg BitVec.toNat hlrc).trans (lrcOfSum_toNat _)⟩

end Sys2Proof.Proofs
end

section
/-! The frame codec family: the frame the encoders build in place, DECODE, and the exception form it reports. -/

namespace Sys2Proof.Proofs

open Sys2Proof.Machine Sys2Proof.Claims

/-! ## Ranges of bytes, written and unwritten -/

theorem bytesAt_append {s : State} {i : Nat} {p c : List Byte} (h : BytesAt s i (p ++ c)) :
    BytesAt s i p ∧ BytesAt s (i + p.length) c := by
  constructor
  · intro k hk
    rw [h k (by simp; omega), List.getElem_append_left hk]
  · intro k hk
    rw [Nat.add_assoc, h (p.length + k) (by simp; omega), List.getElem_append_right (by omega)]
    simp

/-- The fault of an unwritten byte of a range is one of a wider range. -/
theorem stopsOnUnwritten_widen {o : Out} {s : State} {i n i' n' : Nat} (hi : i' ≤ i) (hn : i + n ≤ i' + n')
    (h : StopsOnUnwritten o s i n) : StopsOnUnwritten o s i' n' := by
  obtain ⟨j, hij, hjn, hj, ho⟩ := h
  exact ⟨j, by omega, by omega, hj, ho⟩

/-- Where what follows stops on an unwritten byte of a range, using bytes of that range first does not prevent it. -/
theorem useBytes_stopsOnUnwritten_of_next {s : State} {i n i' n' : Nat} {next : List Byte → Out} (hi : i' ≤ i)
    (hn : i + n ≤ i' + n') (h : ∀ bs, StopsOnUnwritten (next bs) s i' n') :
    StopsOnUnwritten (useBytes s.fbuf i n next) s i' n' := by
  cases hr : s.fbuf.readRange i n with
  | ok bs =>
    rw [useBytes_of_ok hr]
    exact h bs
  | error j =>
    obtain ⟨hij, hjn, hj, -⟩ := readRange_error hr
    exact ⟨j, by omega, by omega, hj, by simp [useBytes, hr]⟩

/-! ## The accumulator of the mode -/

theorem accumulate_of_rtu {s : State} (h : s.mode = .rtu) (bs : List Byte) :
    accumulate bs s = { s with crc := crc16 bs } := by
  simp [accumulate, h]

theorem accumulate_of_ascii {s : State} (h : s.mode = .ascii) (bs : List Byte) :
    accumulate bs s = { s with sum := sum8 bs } := by
  simp [accumulate, h]

/-! ## The encoders (41_frame_codec.md R69 to R71) -/

theorem frameLength_lt {s : State} (h : frameLength s ≤ capacity s) : frameLength s < 2 ^ 16 := by
  have hcap : capacity s ≤ 65535 := s.cfg.fitsLength
  omega

/-- The body of ENC_QUERY and ENC_RESP on a written payload that fits, in either mode: the frame in place and its
length, the accumulator of the mode, nothing else. -/
theorem encodePayload_frame {s : State} {q : List Byte} (hlen : q.length = s.plen.toNat) (hq : BytesAt s 2 q)
    (hcap : frameLength s ≤ capacity s) :
    ∃ t, encodePayload s = .next t ∧
      BytesAt t 0 ([s.addr, s.fc] ++ q ++ checkBytes s.mode ([s.addr, s.fc] ++ q)) ∧
      (∀ j, frameLength s ≤ j → t.fbuf.read j = s.fbuf.read j) ∧
      t.flen.toNat = frameLength s ∧
      t = { accumulate ([s.addr, s.fc] ++ q) s with
        fbuf := t.fbuf
        flen := t.flen
        err := false
        errCode := 0#4 } := by
  have hpay := readRange_of_bytesAt hq
  have hk : 2 + s.plen.toNat = ([s.addr, s.fc] ++ q).length := by simp; omega
  refine ⟨_, encodePayload_run hlen hpay hcap, ?_, ?_, ?_, rfl⟩
  · intro k hk'
    have hhead : ((s.fbuf.write 0 s.addr).write 1 s.fc).readRange 0 ([s.addr, s.fc] ++ q).length =
        .ok ([s.addr, s.fc] ++ q) := by
      rw [← hk, ← hlen]
      exact readRange_header _ _ hpay
    simp only [setSuccess_fbuf, hk, Nat.zero_add]
    exact read_writeRange_append _ hhead k hk'
  · intro j hj
    unfold frameLength at hj
    rw [setSuccess_fbuf, read_writeRange_other _ _ _ (.inr (by simpa using hj)),
      read_write_other _ _ (by omega), read_write_other _ _ (by omega)]
  · exact (BitVec.toNat_ofNat _ 16).trans (Nat.mod_eq_of_lt (frameLength_lt hcap))

/-- A payload with an unwritten byte: the two header bytes are stored first, so the fault is that of a payload byte. -/
theorem encodePayload_stopsOnUnwritten {s : State} {k : Nat} (hcap : frameLength s ≤ capacity s) (h2 : 2 ≤ k)
    (hk : k < 2 + s.plen.toNat) (hnone : s.fbuf.read k = none) :
    StopsOnUnwritten (encodePayload s) s 2 s.plen.toNat := by
  rw [encodePayload, if_neg (by omega)]
  have hread : ∀ j, 2 ≤ j → ((s.fbuf.write 0 s.addr).write 1 s.fc).read j = s.fbuf.read j := fun j hj => by
    rw [read_write_other _ _ (by omega), read_write_other _ _ (by omega)]
  obtain ⟨j, -, hjn, hj, ho⟩ := useBytes_stopsOnUnwritten
    (s := { s with fbuf := (s.fbuf.write 0 s.addr).write 1 s.fc }) (Nat.zero_le k) (hk.trans_eq (Nat.zero_add _).symm)
    ((hread k h2).trans hnone) _
  have hj2 : 2 ≤ j := by
    by_contra hlt
    obtain rfl | rfl : j = 0 ∨ j = 1 := by omega
    · simp [read_write] at hj
    · simp at hj
  exact ⟨j, hj2, by omega, (hread j hj2).symm.trans hj, ho⟩

/-- A command with the body of ENC_QUERY and ENC_RESP frames the payload as R69 says. -/
theorem encodesFrame_of_exec {i : Instr} (hi : ∀ s, exec i s = encodePayload s) : EncodesFrame i := by
  simp only [EncodesFrame, hi]
  refine ⟨?_, ?_, fun s => encodePayload_tooLarge,
    fun s k hcap h2 hk => encodePayload_stopsOnUnwritten hcap h2 hk⟩
  · intro s q hlen hq hmode hcap
    have hframe : frameLength s = 2 + s.plen.toNat + 2 := by rw [frameLength, hmode]; rfl
    have h := encodePayload_frame hlen hq (hframe ▸ hcap)
    rwa [hframe, hmode, accumulate_of_rtu hmode] at h
  · intro s q hlen hq hmode hcap
    have hframe : frameLength s = 2 + s.plen.toNat + 1 := by rw [frameLength, hmode]; rfl
    have h := encodePayload_frame hlen hq (hframe ▸ hcap)
    rwa [hframe, hmode, accumulate_of_ascii hmode] at h

/-- Settles O18: ENC_QUERY is `encodePayload`, in each of its outcomes. -/
theorem encQueryBuildsTheFrameInPlace : Obligations.EncQueryBuildsTheFrameInPlace :=
  ⟨encodesFrame_of_exec fun _ => rfl, wordRuns_of_eq_encodeCommand rfl, illegalWithOpc_of (by decide)⟩

/-- Settles O19: ENC_RESP is the same `encodePayload`. -/
theorem encRespComputesWhatEncQueryComputes : Obligations.EncRespComputesWhatEncQueryComputes :=
  ⟨encodesFrame_of_exec fun _ => rfl, fun _ => rfl, wordRuns_of_eq_encodeCommand rfl,
    illegalWithOpc_of (by decide)⟩

/-- ENC_EXC from every state, in either mode: the exception frame in place, PLEN and FLEN, the accumulator of the mode,
nothing else. -/
theorem execEncExc_frame (s : State) (code : Byte) :
    ∃ t, execEncExc code s = .next t ∧
      BytesAt t 0 ([s.addr, s.fc ||| 0x80#8, code] ++ checkBytes s.mode [s.addr, s.fc ||| 0x80#8, code]) ∧
      (∀ j, 3 + checkWidth s.mode ≤ j → t.fbuf.read j = s.fbuf.read j) ∧
      t = { accumulate [s.addr, s.fc ||| 0x80#8, code] s with
        fbuf := t.fbuf
        plen := 1#16
        flen := BitVec.ofNat 16 (3 + checkWidth s.mode)
        err := false
        errCode := 0#4 } := by
  refine ⟨_, execEncExc_run s code, ?_, ?_, rfl⟩
  · intro k hk
    rw [Nat.zero_add]
    exact read_writeRange_append _ (readRange_three _ _ _ _) k hk
  · intro j hj
    rw [setSuccess_fbuf, read_writeRange_other _ _ _ (.inr (by simpa using hj)),
      read_write_other _ _ (by omega), read_write_other _ _ (by omega), read_write_other _ _ (by omega)]

/-- Settles O20: one run of ENC_EXC, read in each mode. -/
theorem encExcBuildsTheExceptionFrame : Obligations.EncExcBuildsTheExceptionFrame := by
  refine ⟨?_, ?_, fun _ => wordRuns_of_eq_encodeCommand rfl, illegalWithOpc_of (by decide)⟩
  · intro s code hmode
    have h := execEncExc_frame s code
    rwa [hmode, accumulate_of_rtu hmode] at h
  · intro s code hmode
    have h := execEncExc_frame s code
    rwa [hmode, accumulate_of_ascii hmode] at h

/-! ## DECODE (41_frame_codec.md R72) -/

/-- DECODE of a frame with right check bytes, in either mode. -/
theorem execDecode_accepts {s : State} {a f : Byte} {q : List Byte}
    (hlen : s.flen.toNat = 2 + q.length + checkWidth s.mode) (hcap : s.flen.toNat ≤ capacity s)
    (h : BytesAt s 0 ([a, f] ++ q ++ checkBytes s.mode ([a, f] ++ q))) :
    execDecode s = .next (setSuccess { accumulate ([a, f] ++ q) s with
      addr := a
      fc := f
      plen := BitVec.ofNat 16 q.length
      excf := f.getLsbD 7
      excode := if f.getLsbD 7 = true then q.headD 0x00#8 else 0x00#8 }) := by
  obtain ⟨hp, hc⟩ := bytesAt_append h
  rw [Nat.zero_add] at hc
  rw [execDecode_run (by simp) (by simp) (by simp; omega) hcap (readRange_of_bytesAt hp) (readRange_of_bytesAt hc),
    if_pos rfl]
  rfl

/-- DECODE of a frame with wrong check bytes, in either mode. -/
theorem execDecode_mismatch {s : State} {p c : List Byte} (hp2 : 2 ≤ p.length) (hcw : c.length = checkWidth s.mode)
    (hlen : s.flen.toNat = p.length + c.length) (hcap : s.flen.toNat ≤ capacity s) (h : BytesAt s 0 (p ++ c))
    (hne : checkBytes s.mode p ≠ c) : execDecode s = .next (reported 1#4 s) := by
  obtain ⟨hp, hc⟩ := bytesAt_append h
  rw [Nat.zero_add] at hc
  rw [execDecode_run hp2 hcw hlen hcap (readRange_of_bytesAt hp) (readRange_of_bytesAt hc), if_neg hne]
  rfl

/-- A length below that of the shortest frame is below CAP, so FrameTooShort is what DECODE reports. -/
theorem execDecode_tooShort {s : State} (h : s.flen.toNat < 2 + checkWidth s.mode) :
    execDecode s = .next (reported 2#4 s) := by
  have hcap : 5 ≤ capacity s := s.cfg.atLeastFive
  have hw := checkWidth_le s.mode
  rw [execDecode, if_neg (by omega), if_pos h]
  rfl

/-- `check_ok(n)` consumes all of FBUF[0..n): the frame less its check bytes, then these. -/
theorem checkOk_stopsOnUnwritten {s : State} {n k : Nat} (hw : checkWidth s.mode ≤ n) (hk : k < n)
    (hnone : s.fbuf.read k = none) (next : Bool → Out) : StopsOnUnwritten (checkOk n s next) s 0 n := by
  by_cases hbody : k < n - checkWidth s.mode
  · exact stopsOnUnwritten_widen (Nat.le_refl 0) (by omega)
      (useBytes_stopsOnUnwritten (Nat.zero_le k) (by omega) hnone _)
  · exact useBytes_stopsOnUnwritten_of_next (Nat.le_refl 0) (by omega) fun _ =>
      stopsOnUnwritten_widen (Nat.zero_le _) (by omega)
        (useBytes_stopsOnUnwritten (Nat.le_of_not_lt hbody) (by omega) hnone _)

theorem execDecode_stopsOnUnwritten {s : State} {k : Nat} (hlong : 2 + checkWidth s.mode ≤ s.flen.toNat)
    (hcap : s.flen.toNat ≤ capacity s) (hk : k < s.flen.toNat) (hnone : s.fbuf.read k = none) :
    StopsOnUnwritten (execDecode s) s 0 s.flen.toNat := by
  rw [execDecode, if_neg (by omega), if_neg (by omega)]
  exact checkOk_stopsOnUnwritten (by omega) hk hnone _

/-- A CRC other than the received one differs from it in one of the two bytes. -/
theorem checkBytes_rtu_ne {p : List Byte} {lo hi : Byte} (h : crc16 p ≠ hi ++ lo) : checkBytes .rtu p ≠ [lo, hi] := by
  intro heq
  simp only [checkBytes, List.cons.injEq, and_true] at heq
  obtain ⟨hlo, hhi⟩ := heq
  exact h (by rw [← hlo, ← hhi, highByte_append_lowByte])

/-- Settles O21: the outcomes of DECODE, the first two read in each mode. -/
theorem decodeValidatesAndUnpacks : Obligations.DecodeValidatesAndUnpacks := by
  refine ⟨?_, ?_, ?_, ?_, fun s => execDecode_tooLarge, fun s => execDecode_tooShort,
    fun s k => execDecode_stopsOnUnwritten, wordRuns_of_eq_encodeCommand rfl, illegalWithOpc_of (by decide)⟩
  · intro s a f q hmode hlen hcap h
    have hrun := execDecode_accepts (a := a) (f := f) (q := q) (by rw [hlen, hmode]; rfl) hcap (by rw [hmode]; exact h)
    rwa [accumulate_of_rtu hmode] at hrun
  · intro s a f q hmode hlen hcap h
    have hrun := execDecode_accepts (a := a) (f := f) (q := q) (by rw [hlen, hmode]; rfl) hcap (by rw [hmode]; exact h)
    rwa [accumulate_of_ascii hmode] at hrun
  · intro s p lo hi hmode hlen hp hcap h hne
    exact execDecode_mismatch (c := [lo, hi]) hp (by rw [hmode]; rfl) hlen hcap h
      (by rw [hmode]; exact checkBytes_rtu_ne hne)
  · intro s p l hmode hlen hp hcap h hne
    refine execDecode_mismatch (c := [l]) hp (by rw [hmode]; rfl) hlen hcap h ?_
    rw [hmode]
    exact fun heq => hne (List.singleton_inj.1 heq)

/-! ## The exception form (41_frame_codec.md R73) -/

/-- EXCF and EXCODE are the same in both states. -/
def SameException (s t : State) : Prop := t.excf = s.excf ∧ t.excode = s.excode

theorem not_sameException_iff {s t : State} : ¬SameException s t ↔ t.excf ≠ s.excf ∨ t.excode ≠ s.excode :=
  not_and_or

/-- Every command word keeps the exception form, but for a DECODE that succeeds. -/
theorem runCommand_exception {w : Word} {s t : State} (h : runCommand w s = .next t) :
    SameException s t ∨ (decodeCommand w = .ok .decode ∧ t.err = false) := by
  rcases runCommand_cases w s with ⟨i, hi, hrun⟩ | ⟨e, -, hrun⟩ <;> rw [hrun] at h
  · rcases exec_ends h with ⟨e, -, rfl⟩ | ⟨herr, -, -, hexc⟩
    · exact .inl ⟨rfl, rfl⟩
    · by_cases hd : i = .decode
      · exact .inr ⟨hd ▸ hi, herr⟩
      · exact .inl (hexc hd)
  · cases h
    exact .inl ⟨rfl, rfl⟩

/-- Every step keeps the exception form, but for a command word that changes it and the events of the reset input. -/
theorem step_exception {s t : State} (h : step s = .next t) :
    SameException s t ∨ ∃ e rest, s.pending = e :: rest ∧
      ((∃ w, e = .write 0x00000#17 4 w ∧ decodeCommand w = .ok .decode ∧ t.err = false) ∨ IsResetEvent e) := by
  rcases step_cases h with ⟨-, rfl⟩ | ⟨e, rest, hp, ⟨a, n, -, -, hread⟩ | ⟨a, n, v, rfl, -, hwrite⟩ | ⟨rfl, -⟩ |
    ⟨rfl, -⟩ | ⟨v, rfl, -, -⟩⟩
  · exact .inl ⟨rfl, rfl⟩
  · rcases busRead_next hread with ⟨r, -, -, rfl⟩ | ⟨i, bs, -, -, rfl⟩ <;> exact .inl ⟨rfl, rfl⟩
  · rcases hwrite with ⟨hcmd, hrun⟩ | ⟨r, -, -, -, rfl⟩ | ⟨i, -, rfl⟩
    · obtain ⟨rfl, rfl⟩ := eq_of_regAccess?_cmd hcmd
      exact (runCommand_exception hrun).imp_right fun hd => ⟨_, rest, hp, .inl ⟨v, rfl, hd⟩⟩
    · exact .inl ⟨writeReg_excf r v _, writeReg_excode r v _⟩
    · exact .inl ⟨rfl, rfl⟩
  · exact .inr ⟨_, rest, hp, .inr (.inl rfl)⟩
  · exact .inr ⟨_, rest, hp, .inr (.inr (.inl rfl))⟩
  · exact .inr ⟨_, rest, hp, .inr (.inr (.inr ⟨v, rfl⟩))⟩

/-- What a DECODE that ends without an error leaves in EXCF, EXCODE and PLEN. -/
theorem execDecode_next_of_ok {s t : State} (h : execDecode s = .next t) (herr : t.err = false) :
    ∃ f, s.fbuf.read 1 = some f ∧ t.excf = f.getLsbD 7 ∧
      t.plen = BitVec.ofNat 16 (s.flen.toNat - 2 - checkWidth s.mode) ∧
      ((f.getLsbD 7 = true ∧ 1 ≤ s.flen.toNat - 2 - checkWidth s.mode ∧ s.fbuf.read 2 = some t.excode) ∨
        (¬(f.getLsbD 7 = true ∧ 1 ≤ s.flen.toNat - 2 - checkWidth s.mode) ∧ t.excode = 0x00#8)) := by
  rcases execDecode_next h with
    ⟨-, rfl⟩ | ⟨-, -, rfl⟩ | ⟨-, -, bs, cs, -, -, ⟨-, rfl⟩ | ⟨-, a, f, e, -, hf, hcode, rfl⟩⟩
  · simp at herr
  · simp at herr
  · simp at herr
  · exact ⟨f, hf, rfl, rfl, hcode⟩

/-- Settles O22: by what an accepted frame leaves, and by what a command word and a step can do to the exception form. -/
theorem decodeReportsTheExceptionForm : Obligations.DecodeReportsTheExceptionForm := by
  refine ⟨?_, ?_, fun w s t h hne => (runCommand_exception h).resolve_left (not_sameException_iff.2 hne),
    fun s t h hne => (step_exception h).resolve_left (not_sameException_iff.2 hne)⟩
  · intro s t h herr
    obtain ⟨f, hf, hflag, hplen, hcode⟩ := execDecode_next_of_ok h herr
    have hfits : s.flen.toNat - 2 - checkWidth s.mode < 2 ^ 16 := by have := s.flen.isLt; omega
    refine ⟨f, hf, hflag, by rw [hplen, BitVec.toNat_ofNat, Nat.mod_eq_of_lt hfits], ?_, ?_⟩
    · intro h7 hpay
      rcases hcode with ⟨-, -, he⟩ | ⟨hnone, -⟩
      · exact he
      · exact absurd ⟨h7, hpay⟩ hnone
    · intro hnone
      rcases hcode with ⟨h7, hpay, -⟩ | ⟨-, he⟩
      · rcases hnone with h7' | hempty
        · cases h7.symm.trans h7'
        · omega
      · exact he
  · intro s a f q hlen hcap h h7 _
    have hfits : q.length < 2 ^ 16 := by have := s.flen.isLt; omega
    exact ⟨_, execDecode_accepts hlen hcap h, rfl, h7, if_pos h7,
      (BitVec.toNat_ofNat _ 16).trans (Nat.mod_eq_of_lt hfits)⟩

end Sys2Proof.Proofs
end

section
/-! The control family: CLR_ERR. -/

namespace Sys2Proof.Proofs

open Sys2Proof.Machine Sys2Proof.Claims

/-! ## CLR_ERR (42_control.md R80) -/

/-- CLR_ERR completes, and a completion clears ERR and ERRCODE: with ERRACC, the whole error status but EXCF. -/
theorem exec_clrErr (s : State) :
    exec .clrErr s = .next { s with err := false, errCode := 0#4, errAcc := false } := rfl

/-- A step that clears ERRACC ran CLR_ERR or served an event of the reset input: R15's sticky bit, as R80 says it. -/
theorem step_clears_errAcc {s t : State} (h : step s = .next t) (hset : s.errAcc = true) (hclear : t.errAcc = false) :
    ∃ e rest, s.pending = e :: rest ∧
      ((∃ w, e = .write 0x00000#17 4 w ∧ decodeCommand w = .ok .clrErr) ∨ IsResetEvent e) := by
  obtain ⟨-, -, hcleared, -, -⟩ := errAccIsStickyUntilClrErrOrReset
  exact hcleared s t h hset hclear

/-- Settles O23: what CLR_ERR leaves, what can clear ERRACC, and the word of CLR_ERR with its illegal variants. -/
theorem clrErrClearsTheErrorStatus : Obligations.ClrErrClearsTheErrorStatus :=
  ⟨exec_clrErr, fun _ _ => step_clears_errAcc, wordRuns_of_eq_encodeCommand rfl, illegalWithOpc_of (by decide)⟩

end Sys2Proof.Proofs
end

section
/-! The exceptions family: the two ends of a command, and the order of the checks. -/

namespace Sys2Proof.Proofs

open Sys2Proof.Machine Sys2Proof.Claims

/-! ## The two ends of a command (60_exceptions.md R82) -/

theorem one_le_errorCode (e : CmdError) : 1 ≤ (errorCode e).toNat := by cases e <;> decide

/-- A command word that fails reports its code in STATUS, and the rest of the state is as it was. -/
theorem runCommand_eq_reported_of_err {w : Word} {s t : State} (h : runCommand w s = .next t) (herr : t.err = true) :
    t = reported t.errCode s ∧ 1 ≤ t.errCode.toNat ∧ t.errCode.toNat ≤ 4 := by
  rcases runCommand_ends h with ⟨e, rfl⟩ | ⟨i, -, -, hok, -⟩
  · exact ⟨rfl, one_le_errorCode e, errorCode_le_four e⟩
  · simp [hok] at herr

theorem runCommand_errCode_of_ok {w : Word} {s t : State} (h : runCommand w s = .next t) (herr : t.err = false) :
    t.errCode = 0#4 := by
  rcases runCommand_ends h with ⟨e, rfl⟩ | ⟨i, -, -, -, hcode, -⟩
  · simp at herr
  · exact hcode

/-- Settles O24: a command word ends in a STATUS write alone or in a success, and only a successful DECODE reaches EXCF. -/
theorem commandsEndInCompleteOrRaise : Obligations.CommandsEndInCompleteOrRaise := by
  intro w s t h
  refine ⟨fun herr => ⟨runCommand_errCode_of_ok h herr, runCommand_errAcc_of_ok h herr⟩,
    runCommand_eq_reported_of_err h, fun hne => ?_⟩
  rcases runCommand_exception h with ⟨hexcf, -⟩ | hdecode
  · exact absurd hexcf hne
  · exact hdecode

/-! ## The order of the checks (60_exceptions.md R83) -/

/-- The code of a DECODE that fails: its checks in R83's order. -/
def decodeErrorCode (s : State) : BitVec 4 :=
  if capacity s < s.flen.toNat then 3#4 else if s.flen.toNat < 2 + checkWidth s.mode then 2#4 else 1#4

theorem length_legal_of_decodeErrorCode {s : State} (h : decodeErrorCode s = 1#4) :
    s.flen.toNat ≤ capacity s ∧ 2 + checkWidth s.mode ≤ s.flen.toNat := by
  unfold decodeErrorCode at h
  split at h
  · simp at h
  split at h
  · simp at h
  · omega

/-- ERR and ERRCODE after a DECODE: both clear, or the code of the first check that failed. -/
theorem exec_decode_errCode {s t : State} (h : exec .decode s = .next t) :
    (t.err = false ∧ t.errCode = 0#4) ∨ t.errCode = decodeErrorCode s := by
  unfold decodeErrorCode
  rcases execDecode_next h with ⟨hlarge, rfl⟩ | ⟨hcap, hshort, rfl⟩ |
    ⟨hcap, hlong, bs, cs, -, -, ⟨-, rfl⟩ | ⟨-, a, f, e, -, -, -, rfl⟩⟩
  · right
    rw [if_pos hlarge]
    rfl
  · right
    rw [if_neg hcap.not_gt, if_pos hshort]
    rfl
  · right
    rw [if_neg hcap.not_gt, if_neg hlong.not_gt]
    rfl
  · exact .inl ⟨rfl, rfl⟩

/-- CAP is at least 5 (00_scope.md R5), and the shortest frame has at most 4 bytes. -/
theorem shortestFrame_lt_capacity (s : State) : 2 + checkWidth s.mode < capacity s := by
  have hcap : 5 ≤ capacity s := s.cfg.atLeastFive
  have hw := checkWidth_le s.mode
  omega

/-- Settles O25: a word that does not decode runs no command body, and DECODE's codes follow its chain of checks. -/
theorem errorPriorityGivesOneCode : Obligations.ErrorPriorityGivesOneCode := by
  refine ⟨fun w e s => (runCommand_of_error · s), ?_, ?_, ?_⟩
  · intro s t h herr
    rcases exec_decode_errCode h with ⟨hok, -⟩ | hcode
    · simp [herr] at hok
    · exact hcode
  · rintro s ⟨hlarge, hshort⟩
    have := shortestFrame_lt_capacity s
    omega
  · intro s t h hone
    rcases exec_decode_errCode h with ⟨-, hzero⟩ | hcode
    · simp [hzero] at hone
    · exact length_legal_of_decodeErrorCode (hcode.symm.trans hone)

end Sys2Proof.Proofs
end

section
/-! The reset family: what the events of the reset input leave, accesses while it is asserted, and the buffer after reset. -/

namespace Sys2Proof.Proofs

open Sys2Proof.Machine Sys2Proof.Claims

/-! ## The events of the reset input (70_reset_and_hazards.md R97, R98) -/

theorem atResetValues_holdInReset (s : State) : AtResetValues (holdInReset s) := by simp [AtResetValues]

theorem atResetValues_leaveReset {s : State} (h : s.inReset = true) : AtResetValues (leaveReset s) :=
  ⟨leaveReset_crc s h, leaveReset_sum s h, leaveReset_mode s h, leaveReset_addr s h, leaveReset_fc s h,
    leaveReset_plen s h, leaveReset_flen s h, leaveReset_excode s h, leaveReset_err s h, leaveReset_errAcc s h,
    leaveReset_excf s h, leaveReset_errCode s h, leaveReset_fbuf s h⟩

theorem readReg_status_of_atResetValues {s : State} (h : AtResetValues s) : readReg .status s = 0x00000000#32 := by
  obtain ⟨-, -, -, -, -, -, -, -, herr, hacc, hexcf, hcode, -⟩ := h
  simp [readReg, statusWord, herr, hacc, hexcf, hcode]

theorem step_assertReset {s : State} {rest : List HostEvent} (h : s.pending = .assertReset :: rest) :
    step s = .next (holdInReset { s with pending := rest }) := step_of_cons h

theorem step_releaseReset {s : State} {rest : List HostEvent} (h : s.pending = .releaseReset :: rest) :
    step s = .next (leaveReset { s with pending := rest }) := step_of_cons h

/-- The release of an asserted reset input: the reset state, ready for the events that follow. -/
theorem exists_step_releaseReset {s : State} {rest : List HostEvent} (hreset : s.inReset = true)
    (h : s.pending = .releaseReset :: rest) :
    ∃ t, step s = .next t ∧ AtResetValues t ∧ t.cfg = s.cfg ∧ t.inReset = false ∧ t.pending = rest :=
  ⟨_, step_releaseReset h, atResetValues_leaveReset hreset, leaveReset_cfg _ hreset, leaveReset_inReset _ hreset,
    leaveReset_pending _ hreset⟩

/-- Settles O42: the release of reset is a step to the reset values, at which STATUS reads 0. -/
theorem resetLeavesTheStatedValues : Obligations.ResetLeavesTheStatedValues := by
  refine ⟨⟨rfl, rfl, rfl, rfl, rfl, rfl, rfl, rfl, rfl⟩, ?_⟩
  intro s rest hreset hp
  obtain ⟨t, hstep, hvalues, hcfg, hreleased, hrest⟩ := exists_step_releaseReset hreset hp
  have hcap : readReg .cap t = BitVec.ofNat 32 s.cfg.maxPacketSize := by rw [← hcfg]; rfl
  exact ⟨t, hstep, hvalues, readReg_status_of_atResetValues hvalues, hcap, hrest, hreleased⟩

/-! ## Accesses and the reset input (70_reset_and_hazards.md R97) -/

/-- An access while reset is asserted has no step. -/
theorem step_access_inReset {s : State} {a : BlockAddr} {n : Nat} {v : Word} {rest : List HostEvent}
    (hreset : s.inReset = true) (hp : s.pending = .read a n :: rest ∨ s.pending = .write a n v :: rest) :
    step s = .fault .accessInReset := by
  rcases hp with hp | hp <;> rw [step_of_cons hp] <;> simp [serve, hreset, runAccepted]

/-- A step that changes the level of the reset input serves an event of that input. -/
theorem step_inReset {s t : State} (h : step s = .next t) :
    t.inReset = s.inReset ∨ ∃ e rest, s.pending = e :: rest ∧ IsResetEvent e := by
  rcases step_cases h with ⟨-, rfl⟩ | ⟨e, rest, hp, ⟨a, n, -, -, hread⟩ | ⟨a, n, v, -, -, hwrite⟩ | ⟨rfl, -⟩ |
    ⟨rfl, -⟩ | ⟨v, rfl, -, -⟩⟩
  · exact .inl rfl
  · rw [busRead_keeps hread]
    exact .inl rfl
  · left
    rcases hwrite with ⟨-, hrun⟩ | ⟨r, -, -, -, rfl⟩ | ⟨i, -, rfl⟩
    · obtain ⟨-, hkept, -⟩ := runCommand_keeps_port hrun
      exact hkept
    · exact writeReg_inReset r v _
    · rfl
  · exact .inr ⟨_, rest, hp, .inl rfl⟩
  · exact .inr ⟨_, rest, hp, .inr (.inl rfl)⟩
  · exact .inr ⟨_, rest, hp, .inr (.inr ⟨v, rfl⟩)⟩

/-- No read and no write of the host moves the reset input: there is no software reset. -/
theorem step_access_keeps_inReset {s t : State} {a : BlockAddr} {n : Nat} {v : Word} {rest : List HostEvent}
    (hp : s.pending = .read a n :: rest ∨ s.pending = .write a n v :: rest) (h : step s = .next t) :
    t.inReset = s.inReset := by
  refine (step_inReset h).resolve_right ?_
  rintro ⟨e, rest', hp', he⟩
  rcases hp with hp | hp <;> obtain ⟨rfl, -⟩ := List.cons.inj (hp.symm.trans hp') <;> simp [IsResetEvent] at he

/-- Settles O44: by the steps of the two events of the reset input, and by what a step can do to its level. -/
theorem accessesInResetHaveNoStep : Obligations.AccessesInResetHaveNoStep := by
  refine ⟨?_, fun s a n v rest => step_access_inReset, ?_, fun s t a n v rest => step_access_keeps_inReset⟩
  · intro s rest hp
    exact ⟨_, step_assertReset hp, atResetValues_holdInReset _, rfl, rfl, rfl⟩
  · intro s rest hreset hp
    obtain ⟨t, hstep, hvalues, -, hreleased, hrest⟩ := exists_step_releaseReset hreset hp
    have ⟨hcrc, _⟩ := hvalues
    have hread : readReg .crc t = 0x0000FFFF#32 := congrArg (BitVec.setWidth 32) hcrc
    exact ⟨t, _, hstep, hvalues, hreleased, step_readReg (r := .crc) rfl ⟨hreleased, hrest⟩, congrArg Reply.data hread⟩

/-! ## The buffer after reset (70_reset_and_hazards.md R99) -/

theorem core_run_succ {s t : State} (k : Nat) (h : step s = .next t) :
    Host.Core.run Sys2Proof.core (k + 1) s = Host.Core.run Sys2Proof.core k t := by
  have hcore : Sys2Proof.core.step s = .next t := h
  simp only [Host.Core.run, hcore]

/-- Reset asserted and released leaves the reset state, the input released. -/
theorem run_assert_release {s t : State} {rest : List HostEvent} (hp : s.pending = .assertReset :: .releaseReset :: rest)
    (h : Host.Core.run Sys2Proof.core 2 s = .next t) : AtResetValues t ∧ t.inReset = false := by
  obtain ⟨u, hstep, hvalues, -, hreleased, -⟩ :=
    exists_step_releaseReset (s := holdInReset { s with pending := .releaseReset :: rest }) rfl rfl
  rw [core_run_succ 1 (step_assertReset hp), core_run_succ 0 hstep] at h
  obtain rfl : u = t := Host.Outcome.next.inj h
  exact ⟨hvalues, hreleased⟩

/-- A byte read of an unwritten byte of the buffer window stops on the fault that names it. -/
theorem step_readByte_unwritten {s : State} {i : Nat} {rest : List HostEvent} (hcap : i < capacity s)
    (hnone : s.fbuf.read i = none) (h : Takes s (.read (BitVec.ofNat 17 (0x10000 + i)) 1) rest) :
    step s = .fault (.unwrittenBuffer i) := by
  have hfits : capacity s ≤ 65535 := s.cfg.fitsLength
  have haddr : (BitVec.ofNat 17 (0x10000 + i)).toNat = 0x10000 + i := by
    rw [BitVec.toNat_ofNat, Nat.mod_eq_of_lt (by omega)]
  have hwin := windowAccess?_of_admitted (s := s) haddr ⟨.inl rfl, Nat.mod_one _, hcap⟩
  have hfirst : FirstUnwritten s i 1 i := ⟨Nat.le_refl i, Nat.lt_succ_self i, hnone, fun k hik hki => by omega⟩
  rw [step_readWindow hwin h, useBytes, readRange_of_firstUnwritten hfirst]

/-- Settles O43: the reset values hold no buffer byte, so a use of one meets an unwritten byte at the start of its range. -/
theorem resetLeavesEveryBufferByteUnwritten : Obligations.ResetLeavesEveryBufferByteUnwritten := by
  rintro s t rest ⟨-, hp⟩ hrun
  obtain ⟨⟨-, -, hmode, -, -, -, -, -, -, -, -, -, hfbuf⟩, hreleased⟩ := run_assert_release hp hrun
  have hnone : ∀ i, t.fbuf.read i = none := fun i => by rw [hfbuf]; rfl
  have hwidth : checkWidth t.mode = 2 := by rw [hmode]; rfl
  refine ⟨hnone, ?_, ?_, ?_⟩
  · intro i hi
    exact step_readByte_unwritten hi (hnone i) ⟨hreleased, rfl⟩
  · intro n hpos hcap
    have hbuf := useBuffer_stopsOnUnwritten (s := { t with flen := n }) hcap hpos (hnone 0)
    refine ⟨hbuf _, hbuf _, fun hlong => ?_⟩
    exact execDecode_stopsOnUnwritten (s := { t with flen := n }) (by rw [hwidth]; exact hlong) hcap hpos (hnone 0)
  · intro n hpos hcap
    have hframe : frameLength { t with plen := n } = 4 + n.toNat := by
      simp only [frameLength, hwidth]
      omega
    have hpayload := encodePayload_stopsOnUnwritten (s := { t with plen := n }) (hframe ▸ hcap) (Nat.le_refl 2)
      (Nat.lt_add_of_pos_right hpos) (hnone 2)
    exact ⟨hpayload, hpayload⟩

end Sys2Proof.Proofs
end

section
/-! The checksum functions: the vectors, the exact byte sum, linearity, the residue of a sequence with its check bytes, and
the detection of one changed byte. -/

namespace Sys2Proof.Proofs

open Sys2Proof.Machine Sys2Proof.Claims

/-- Settles O7, by evaluation. -/
theorem checksumFunctionsMeetTheVectors : Obligations.ChecksumFunctionsMeetTheVectors := by
  unfold Obligations.ChecksumFunctionsMeetTheVectors
  decide +kernel

/-! ## The byte sum (40_checksum.md R60) -/

/-- SUM is the exact sum of the bytes modulo 256. -/
theorem sum8From_toNat (x : Byte) (bs : List Byte) :
    (sum8From x bs).toNat = (x.toNat + (bs.map BitVec.toNat).sum) % 256 := by
  induction bs generalizing x with
  | nil => exact (Nat.mod_eq_of_lt x.isLt).symm
  | cons b bs ih =>
    rw [sum8From_cons, ih, BitVec.toNat_add, Nat.mod_add_mod, List.map_cons, List.sum_cons, Nat.add_assoc]

/-- The sum of a sequence with its LRC appended is 0. -/
theorem sum8_append_lrc8 (bs : List Byte) : sum8 (bs ++ [lrc8 bs]) = 0x00#8 := by
  rw [sum8_append, sum8_singleton, lrc8, lrcOfSum_eq_neg, BitVec.add_right_neg]

/-- Settles O8: the sum as a number, and the LRC as its two's complement. -/
theorem lrcIsTheTwosComplementOfTheExactSum : Obligations.LrcIsTheTwosComplementOfTheExactSum := by
  intro bs
  refine ⟨?_, lrcOfSum_toNat _, ?_, sum8_append_lrc8 bs⟩
  · exact (sum8From_toNat 0x00#8 bs).trans (by simp)
  · rw [lrc8, lrcOfSum_eq_neg, BitVec.neg_eq_not_add]

/-! ## The CRC step: linear and one-to-one (40_checksum.md R59) -/

/-- A shift as one XOR, with the polynomial or with 0. -/
theorem crcShift_eq_xor (c : Half) : crcShift c = c >>> 1 ^^^ if c.getLsbD 0 then 0xA001#16 else 0#16 := by
  unfold crcShift
  split <;> simp

theorem crcShift_xor (c c' : Half) : crcShift (c ^^^ c') = crcShift c ^^^ crcShift c' := by
  have hpoly : (if (c ^^^ c').getLsbD 0 then 0xA001#16 else 0#16) =
      (if c.getLsbD 0 then 0xA001#16 else 0#16) ^^^ if c'.getLsbD 0 then 0xA001#16 else 0#16 := by
    rw [BitVec.getLsbD_xor]
    cases c.getLsbD 0 <;> cases c'.getLsbD 0 <;> rfl
  rw [crcShift_eq_xor, hpoly, BitVec.ushiftRight_xor_distrib, crcShift_eq_xor c, crcShift_eq_xor c']
  ac_rfl

theorem crcShifts_xor (k : Nat) (c c' : Half) : crcShifts k (c ^^^ c') = crcShifts k c ^^^ crcShifts k c' := by
  induction k generalizing c c' with
  | zero => rfl
  | succ k ih => rw [crcShifts, crcShift_xor, ih]; rfl

/-- Settles O9: each of the eight shifts is linear, and so is the XOR of the byte. -/
theorem crcStepIsLinear : Obligations.CrcStepIsLinear := by
  intro c c' b b'
  rw [crc16Step, crc16Step, crc16Step, ← crcShifts_xor, BitVec.setWidth_xor]
  congr 1
  ac_rfl

/-- A shift loses nothing: bit 15 of its result is the bit shifted out. -/
theorem crcShift_eq_zero {c : Half} (h : crcShift c = 0#16) : c = 0#16 := by
  rw [crcShift_eq_xor] at h
  have hzero : c.getLsbD 0 = false := by
    have htop := congrArg (BitVec.getLsbD · 15) h
    by_contra hone
    rw [if_pos (by simpa using hone)] at htop
    simp at htop
  rw [hzero] at h
  apply BitVec.eq_of_getLsbD_eq
  intro i hi
  rcases i with _ | i
  · exact hzero
  · have hbit := congrArg (BitVec.getLsbD · i) h
    simpa [Nat.add_comm] using hbit

theorem crcShift_injective : Function.Injective crcShift := fun c c' h =>
  BitVec.xor_eq_zero_iff.1 (crcShift_eq_zero (by rw [crcShift_xor, h, BitVec.xor_self]))

theorem crcShifts_injective (k : Nat) : Function.Injective (crcShifts k) := by
  induction k with
  | zero => exact fun _ _ h => h
  | succ k ih => exact ih.comp crcShift_injective

theorem crc16Step_injective_acc (b : Byte) : Function.Injective fun c => crc16Step c b := fun _ _ h =>
  (BitVec.xor_left_inj _).1 (crcShifts_injective 8 h)

theorem crc16Step_injective_byte (c : Half) : Function.Injective (crc16Step c) := by
  intro b b' h
  have hwide := congrArg (BitVec.setWidth 8) ((BitVec.xor_right_inj _).1 (crcShifts_injective 8 h))
  simpa using hwide

/-! ## One changed byte changes the checksum -/

section Fold

variable {σ α : Type} {f : σ → α → σ} (hacc : ∀ b, Function.Injective fun c => f c b)
include hacc

/-- Folding the same bytes keeps different accumulators different. -/
theorem foldl_injective_acc (bs : List α) : Function.Injective fun c => bs.foldl f c := by
  induction bs with
  | nil => exact fun _ _ h => h
  | cons b bs ih => exact ih.comp (hacc b)

/-- Folding one other byte gives another accumulator, and the bytes after it keep it so. -/
theorem foldl_set_ne (hbyte : ∀ c, Function.Injective (f c)) {bs : List α} {j : Nat} (hj : j < bs.length) {b : α}
    (hb : b ≠ bs[j]) (c : σ) : (bs.set j b).foldl f c ≠ bs.foldl f c := by
  induction bs generalizing c j with
  | nil => exact absurd hj (Nat.not_lt_zero j)
  | cons x bs ih =>
    cases j with
    | zero => exact fun h => hb (hbyte c (foldl_injective_acc hacc bs h))
    | succ j => exact ih (Nat.lt_of_succ_lt_succ hj) hb (f c x)

end Fold

theorem crc16_set_ne {bs : List Byte} {j : Nat} (hj : j < bs.length) {b : Byte} (hb : b ≠ bs[j]) :
    crc16 (bs.set j b) ≠ crc16 bs :=
  foldl_set_ne crc16Step_injective_acc crc16Step_injective_byte hj hb _

theorem sum8_set_ne {bs : List Byte} {j : Nat} (hj : j < bs.length) {b : Byte} (hb : b ≠ bs[j]) :
    sum8 (bs.set j b) ≠ sum8 bs :=
  foldl_set_ne (f := sumStep) (fun b _ _ h => (BitVec.add_left_inj b).1 h) (fun c _ _ h => (BitVec.add_right_inj c).1 h)
    hj hb _

/-! ## The residue of a sequence with its check bytes (41_frame_codec.md section 3) -/

/-- Shifts that shift out zeros only are a plain shift. -/
theorem crcShifts_of_low_zero {k : Nat} {c : Half} (h : ∀ i < k, c.getLsbD i = false) : crcShifts k c = c >>> k := by
  induction k generalizing c with
  | zero => simp [crcShifts]
  | succ k ih =>
    have hshift : crcShift c = c >>> 1 := by rw [crcShift, h 0 (Nat.succ_pos k)]; rfl
    rw [crcShifts, hshift, ih fun i hi => ?_, ← BitVec.shiftRight_add, Nat.add_comm]
    rw [BitVec.getLsbD_ushiftRight]
    exact h (1 + i) (by omega)

/-- Folding in its own low byte shifts a CRC down by that byte. -/
theorem crc16Step_lowByte (c : Half) : crc16Step c (lowByte c) = (highByte c).setWidth 16 := by
  rw [crc16Step, crcShifts_of_low_zero]
  · apply BitVec.eq_of_getLsbD_eq
    intro i hi
    by_cases h8 : i < 8
    · simp [lowByte, highByte, h8, hi]
    · have hnone : c.getLsbD (8 + i) = false := BitVec.getLsbD_of_ge c _ (by omega)
      simp [lowByte, highByte, h8, hi, hnone]
  · intro i hi
    have h16 : i < 16 := by omega
    simp [lowByte, hi, h16]

theorem crc16From_own_bytes (c : Half) : crc16From c [lowByte c, highByte c] = 0x0000#16 := by
  rw [crc16From_cons, crc16From_cons, crc16Step_lowByte, crc16From_nil, crc16Step, BitVec.xor_self]
  decide

theorem crc16_append_checkBytes (p : List Byte) : crc16 (p ++ checkBytes .rtu p) = 0x0000#16 :=
  (crc16_append _ _).trans (crc16From_own_bytes _)

theorem sum8_append_checkBytes (p : List Byte) : sum8 (p ++ checkBytes .ascii p) = 0x00#8 := sum8_append_lrc8 p

/-- One changed byte of a sequence with its check bytes makes the check bytes wrong: right ones would give the residue 0
once more. -/
theorem checkBytes_ne_of_set {m : Framing} {p p' c' : List Byte} {j : Nat} {b : Byte}
    (hj : j < (p ++ checkBytes m p).length) (hb : b ≠ (p ++ checkBytes m p)[j])
    (h : p' ++ c' = (p ++ checkBytes m p).set j b) : checkBytes m p' ≠ c' := by
  rintro rfl
  cases m with
  | rtu => exact crc16_set_ne hj hb (by rw [← h, crc16_append_checkBytes, crc16_append_checkBytes])
  | ascii => exact sum8_set_ne hj hb (by rw [← h, sum8_append_checkBytes, sum8_append_checkBytes])

end Sys2Proof.Proofs
end

section
/-! The properties of the whole codec: what an encoder that succeeds leaves in the buffer, and what DECODE and the buffer
checksums make of it. -/

namespace Sys2Proof.Proofs

open Sys2Proof.Machine Sys2Proof.Claims

/-! ## The frame an encoder leaves (41_frame_codec.md R69 to R71) -/

/-- The bytes of a frame in the mode `m`: address, function code, payload, check bytes. -/
def frameBytes (m : Framing) (a f : Byte) (q : List Byte) : List Byte := [a, f] ++ q ++ checkBytes m ([a, f] ++ q)

theorem frameBytes_length (m : Framing) (a f : Byte) (q : List Byte) :
    (frameBytes m a f q).length = 2 + q.length + checkWidth m := by
  simp [frameBytes]
  omega

/-- FBUF[0..FLEN) is the frame of the address `a`, the function code `f` and the payload `q`. -/
def HoldsFrame (s : State) (a f : Byte) (q : List Byte) : Prop :=
  s.flen.toNat = (frameBytes s.mode a f q).length ∧ s.flen.toNat ≤ capacity s ∧ BytesAt s 0 (frameBytes s.mode a f q)

/-- An encoder of a payload that succeeds has found the payload written and the frame inside CAP. -/
theorem encodePayload_next_of_ok {s t : State} (h : encodePayload s = .next t) (herr : t.err = false) :
    frameLength s ≤ capacity s ∧ ∃ q : List Byte, q.length = s.plen.toNat ∧ BytesAt s 2 q := by
  rcases encodePayload_next h with ⟨-, rfl⟩ | ⟨hcap, bs, hbs, -⟩
  · simp at herr
  · obtain ⟨hlen, hget⟩ := (readRange_ok_iff _ _ _ _).1 hbs
    refine ⟨hcap, bs.drop 2, by simp [hlen], fun k hk => ?_⟩
    have hread := hget (2 + k) (by simp at hk; omega)
    rw [Nat.zero_add, read_write_other _ _ (by omega), read_write_other _ _ (by omega)] at hread
    simpa using hread

/-- ENC_QUERY or ENC_RESP that succeeds: the payload it found, the frame it leaves, and the rest of the state. -/
theorem encodePayload_holdsFrame {s t : State} (h : encodePayload s = .next t) (herr : t.err = false) :
    ∃ q : List Byte, q.length = s.plen.toNat ∧ BytesAt s 2 q ∧ HoldsFrame t s.addr s.fc q ∧
      t = { accumulate ([s.addr, s.fc] ++ q) s with
        fbuf := t.fbuf
        flen := t.flen
        err := false
        errCode := 0#4 } := by
  obtain ⟨hcap, q, hlen, hq⟩ := encodePayload_next_of_ok h herr
  obtain ⟨t', h', hbytes, -, hflen, hstate⟩ := encodePayload_frame hlen hq hcap
  obtain rfl : t' = t := Host.Outcome.next.inj (h'.symm.trans h)
  have hmode : t'.mode = s.mode := (congrArg State.mode hstate).trans (accumulate_mode _ s)
  have hcfg : t'.cfg = s.cfg := (congrArg State.cfg hstate).trans (accumulate_cfg _ s)
  refine ⟨q, hlen, hq, ⟨?_, ?_, hmode ▸ hbytes⟩, hstate⟩
  · rw [hflen, hmode, frameBytes_length, hlen, frameLength]
  · rw [hflen, capacity, hcfg]
    exact hcap

/-- ENC_EXC: the frame it leaves, and the rest of the state. -/
theorem execEncExc_holdsFrame (s : State) (code : Byte) :
    ∃ t, execEncExc code s = .next t ∧ HoldsFrame t s.addr (s.fc ||| 0x80#8) [code] ∧ t.mode = s.mode := by
  obtain ⟨t, h, hbytes, -, hstate⟩ := execEncExc_frame s code
  have hmode : t.mode = s.mode := (congrArg State.mode hstate).trans (accumulate_mode _ s)
  have hcfg : t.cfg = s.cfg := (congrArg State.cfg hstate).trans (accumulate_cfg _ s)
  have hw := checkWidth_le s.mode
  have hflen : t.flen.toNat = 3 + checkWidth s.mode := by
    rw [congrArg State.flen hstate]
    exact (BitVec.toNat_ofNat _ 16).trans (Nat.mod_eq_of_lt (by omega))
  refine ⟨t, h, ⟨?_, ?_, hmode ▸ hbytes⟩, hmode⟩
  · rw [hflen, hmode, frameBytes_length]
    rfl
  · rw [hflen, capacity, hcfg]
    have hfits := shortestFrame_lt_capacity s
    simp only [capacity] at hfits
    omega

/-- Every encoder that succeeds leaves some frame, in the mode it found. -/
theorem exec_encoder_holdsFrame {i : Instr} {s t : State} (hi : IsEncoder i) (h : exec i s = .next t)
    (herr : t.err = false) : (∃ a f q, HoldsFrame t a f q) ∧ t.mode = s.mode := by
  have payload : encodePayload s = .next t → (∃ a f q, HoldsFrame t a f q) ∧ t.mode = s.mode := fun h => by
    obtain ⟨q, -, -, hframe, hstate⟩ := encodePayload_holdsFrame h herr
    exact ⟨⟨_, _, q, hframe⟩, (congrArg State.mode hstate).trans (accumulate_mode _ s)⟩
  rcases hi with rfl | rfl | ⟨code, rfl⟩
  · exact payload h
  · exact payload h
  · obtain ⟨t', h', hframe, hmode⟩ := execEncExc_holdsFrame s code
    obtain rfl : t' = t := Host.Outcome.next.inj (h'.symm.trans h)
    exact ⟨⟨_, _, _, hframe⟩, hmode⟩

/-! ## Round trip (41_frame_codec.md section 3) -/

/-- DECODE of a frame in the buffer accepts it and unpacks it. -/
theorem execDecode_of_holdsFrame {s : State} {a f : Byte} {q : List Byte} (h : HoldsFrame s a f q) :
    execDecode s = .next (setSuccess { accumulate ([a, f] ++ q) s with
      addr := a
      fc := f
      plen := BitVec.ofNat 16 q.length
      excf := f.getLsbD 7
      excode := if f.getLsbD 7 = true then q.headD 0x00#8 else 0x00#8 }) := by
  obtain ⟨hlen, hcap, hbytes⟩ := h
  exact execDecode_accepts (hlen.trans (frameBytes_length _ _ _ _)) hcap hbytes

/-- The payload of a frame in the buffer lies from index 2 on. -/
theorem bytesAt_payload_of_holdsFrame {s : State} {a f : Byte} {q : List Byte} (h : HoldsFrame s a f q) :
    BytesAt s 2 q := by
  obtain ⟨-, -, hbytes⟩ := h
  obtain ⟨hbody, -⟩ := bytesAt_append hbytes
  obtain ⟨-, hq⟩ := bytesAt_append (p := [a, f]) hbody
  exact hq

/-- A checksum that the accumulator of the mode already shows leaves both accumulators as they are. -/
theorem accumulate_again {s t : State} {p : List Byte} (hmode : t.mode = s.mode) (hcrc : t.crc = (accumulate p s).crc)
    (hsum : t.sum = (accumulate p s).sum) : (accumulate p t).crc = t.crc ∧ (accumulate p t).sum = t.sum := by
  rw [accumulate_crc, accumulate_sum, hmode]
  rw [accumulate_crc] at hcrc
  rw [accumulate_sum] at hsum
  by_cases hm : s.mode = .rtu
  · rw [if_pos hm] at hcrc ⊢
    exact ⟨hcrc.symm, if_pos hm⟩
  · rw [if_neg hm] at hsum ⊢
    exact ⟨rfl, by rw [if_neg hm, hsum]⟩

/-- Settles O50: the encoder leaves the frame of ADDR, FC and the payload, and DECODE unpacks that frame. -/
theorem decodeInvertsEncode : Obligations.DecodeInvertsEncode := by
  intro i s t hi h herr
  have hpay : encodePayload s = .next t := by rcases hi with rfl | rfl <;> exact h
  obtain ⟨q, hlen, hq, hframe, hstate⟩ := encodePayload_holdsFrame hpay herr
  obtain ⟨hcrc, hsum⟩ := accumulate_again (s := s) (t := t) (p := [s.addr, s.fc] ++ q)
    ((congrArg State.mode hstate).trans (accumulate_mode _ s)) (congrArg State.crc hstate :)
    (congrArg State.sum hstate :)
  refine ⟨_, execDecode_of_holdsFrame hframe, rfl, rfl, rfl, ?_, fun j h2 hj => ?_, accumulate_fbuf _ t, rfl, hcrc, hsum⟩
  · exact (congrArg (BitVec.ofNat 16) hlen).trans (by simp)
  · have hafter := bytesAt_payload_of_holdsFrame hframe (j - 2) (by omega)
    have hbefore := hq (j - 2) (by omega)
    rw [Nat.add_sub_cancel' h2] at hafter hbefore
    rw [hbefore, ← hafter]
    exact congrArg (Memory.read · j) (accumulate_fbuf _ t)

/-! ## Tampering (41_frame_codec.md section 3, 90_conflicts.md C4) -/

/-- A byte stored inside a range replaces that byte of the range. -/
theorem bytesAt_write {s : State} {bs : List Byte} (h : BytesAt s 0 bs) (j : Nat) (b : Byte) :
    BytesAt { s with fbuf := s.fbuf.write j b } 0 (bs.set j b) := by
  intro k hk
  rw [List.length_set] at hk
  rw [read_write, h k hk, Nat.zero_add, List.getElem_set]
  by_cases hkj : k = j
  · simp [hkj]
  · simp [hkj, Ne.symm hkj]

/-- One byte of a frame in the buffer replaced by another: DECODE reports ChecksumMismatch, in STATUS only. -/
theorem execDecode_of_changed_byte {s : State} {a f b : Byte} {q : List Byte} {j : Nat} (h : HoldsFrame s a f q)
    (hj : j < (frameBytes s.mode a f q).length) (hb : b ≠ (frameBytes s.mode a f q)[j]) :
    execDecode { s with fbuf := s.fbuf.write j b } = .next (reported 1#4 { s with fbuf := s.fbuf.write j b }) := by
  obtain ⟨hflen, hcap, hbytes⟩ := h
  have hlen := frameBytes_length s.mode a f q
  have hsplit := List.take_append_drop (2 + q.length) ((frameBytes s.mode a f q).set j b)
  have hchanged := bytesAt_write hbytes j b
  rw [← hsplit] at hchanged
  have hne : checkBytes s.mode _ ≠ _ := checkBytes_ne_of_set hj hb hsplit
  refine execDecode_mismatch ?_ ?_ ?_ hcap hchanged hne
  · simp
    omega
  · simp
    omega
  · simp
    omega

theorem xor_bit_ne (b : Byte) {k : Nat} (hk : k < 8) : b ^^^ (1#8 <<< k) ≠ b := by
  intro h
  have hbit := congrArg (BitVec.getLsbD · k) h
  simp [hk] at hbit

/-- Settles O51: a flipped bit is a changed byte of the frame the encoder left. -/
theorem everySingleBitFlipIsDetected : Obligations.EverySingleBitFlipIsDetected := by
  intro i s t j k b hi h herr hj hk hread
  obtain ⟨⟨a, f, q, hframe⟩, -⟩ := exec_encoder_holdsFrame hi h herr
  have ⟨hflen, _, hbytes⟩ := hframe
  have hjlen : j < (frameBytes t.mode a f q).length := hflen ▸ hj
  have hb : b = (frameBytes t.mode a f q)[j] := by
    have hbyte := hbytes j hjlen
    rw [Nat.zero_add, hread] at hbyte
    exact Option.some.inj hbyte
  exact execDecode_of_changed_byte hframe hjlen (hb ▸ xor_bit_ne b hk)

/-! ## Residue (41_frame_codec.md section 3) -/

/-- Settles O52: a frame ends in its own check bytes, so its checksum is the residue 0. -/
theorem wholeFrameResidueIsZero : Obligations.WholeFrameResidueIsZero := by
  intro i s t hi h herr
  obtain ⟨⟨a, f, q, hlen, hcap, hbytes⟩, hmode⟩ := exec_encoder_holdsFrame hi h herr
  rw [hlen] at hcap
  rw [hmode] at hlen hcap hbytes
  constructor
  · intro hrtu
    have hcrc : crc16 (frameBytes s.mode a f q) = 0x0000#16 := hrtu ▸ crc16_append_checkBytes ([a, f] ++ q)
    rw [exec, execCrcBuf, useBuffer_of_bytesAt hlen hcap hbytes, hcrc]
    rfl
  · intro hascii
    have hsum : sum8 (frameBytes s.mode a f q) = 0x00#8 := hascii ▸ sum8_append_checkBytes ([a, f] ++ q)
    rw [exec, execLrcBuf, useBuffer_of_bytesAt hlen hcap hbytes, hsum]
    have hclear : lrcWord 0x00#8 = 0x00000000#32 := by decide
    exact ⟨_, rfl, rfl, hclear⟩

/-! ## A slave's exception reply (30_encoding.md R57, 60_exceptions.md R96) -/

/-- Settles O53: ENC_EXC leaves the exception frame, and DECODE unpacks it with the flag and the code. -/
theorem exceptionReplyReachesTheMaster : Obligations.ExceptionReplyReachesTheMaster := by
  intro s e
  obtain ⟨t, h, hframe, -⟩ := execEncExc_holdsFrame s (exceptionValue e)
  refine ⟨t, _, h, execDecode_of_holdsFrame hframe, rfl, ?_, ?_, rfl, rfl, ?_⟩
  · simp [hostCorrelates]
  · simp [hostProtocolException]
  · have hcode := bytesAt_payload_of_holdsFrame hframe 0 (by simp)
    simpa using hcode

end Sys2Proof.Proofs
end

section
/-! Commands and their words, and the streaming form of a checksum beside its buffer form. -/

namespace Sys2Proof.Proofs

open Sys2Proof.Machine Sys2Proof.Claims

/-! ## A command and its one word (30_encoding.md R46, R47, R53) -/

/-- Every operand is a byte, so every command is well formed. -/
theorem instr_wellFormed (i : Instr) : i.wellFormed = true := by cases i <;> rfl

/-- Settles O1: the fields of a command survive in its word, and the decoder reads the command from them. -/
theorem encodeThenDecodeGivesTheCommand : Obligations.EncodeThenDecodeGivesTheCommand :=
  fun i _ => decodeCommand_encodeCommand i

/-- Settles O2: a word that decodes has the fields of its command, and the fields are the whole word. -/
theorem decodedWordIsTheCommandsOwnWord : Obligations.DecodedWordIsTheCommandsOwnWord :=
  fun _ i h => ⟨eq_encodeCommand_of_decodeCommand h, instr_wellFormed i⟩

/-- Settles O4, by evaluation. -/
theorem wordsOfTheSpecDecodeAsWritten : Obligations.WordsOfTheSpecDecodeAsWritten :=
  ⟨rfl, rfl, rfl, rfl, rfl, rfl, rfl, rfl, rfl, rfl, rfl, rfl, rfl, rfl, rfl⟩

/-- Settles O6: a CMD write is its word's command, in the state with the event taken and the write answered. -/
theorem stepRunsTheDecodedCommand : Obligations.StepRunsTheDecodedCommand := by
  intro s w i rest ⟨hreset, hp⟩ hdecode _
  rw [step_cmdWrite hreset hp, runCommand_of_ok hdecode]

/-! ## Streaming and buffer forms (40_checksum.md section 1) -/

/-- The low byte of the LRC register is the LRC value of the bytes that SUM is the sum of. -/
theorem readReg_lrc_low {s : State} {bs : List Byte} (h : s.sum = sum8 bs) :
    (readReg .lrc s).extractLsb' 0 8 = lrc8 bs := by
  obtain ⟨-, hlow, -⟩ := lrcWord_fields s.sum
  rw [lrc8, ← h]
  exact hlow

/-- Settles O11: a stream folds its bytes one by one, and the buffer form folds the bytes it reads. -/
theorem streamingAndBufferFormsAgree : Obligations.StreamingAndBufferFormsAgree := by
  refine ⟨fun bs s => ⟨_, runCommands_crcStream bs s, rfl, rfl, rfl, rfl⟩,
    fun bs s => ⟨_, runCommands_lrcStream bs s, rfl, readReg_lrc_low rfl, rfl, rfl, rfl⟩, ?_⟩
  intro bs s hlen hcap h
  exact ⟨⟨_, useBuffer_of_bytesAt hlen hcap h _, rfl⟩, ⟨_, useBuffer_of_bytesAt hlen hcap h _, rfl, readReg_lrc_low rfl⟩⟩

end Sys2Proof.Proofs
end

section
/-! What a command leaves, and where it stops: the writers of each register, the bytes an encoder stores, the faults. -/

namespace Sys2Proof.Proofs

open Sys2Proof.Machine Sys2Proof.Claims

/-! ## What a command leaves -/

/-- `Leaves s i t`: the command `i`, from `s`, can leave `t`, as far as the registers and the stored bytes go. -/
inductive Leaves (s : State) : Instr → State → Prop
  | failure (i : Instr) (e : CmdError) : Leaves s i (setFailure e s)
  | crc {i : Instr} (hi : i = .crcInit ∨ (∃ b, i = .crcByte b) ∨ i = .crcBuf) (c : Half) :
    Leaves s i (setSuccess { s with crc := c })
  | sum {i : Instr} (hi : i = .lrcInit ∨ (∃ b, i = .lrcByte b) ∨ i = .lrcBuf) (x : Byte) :
    Leaves s i (setSuccess { s with sum := x })
  | payload {i : Instr} (hi : i = .encQuery ∨ i = .encResp) (bs : List Byte) (hfits : frameLength s ≤ capacity s) :
    Leaves s i (setSuccess { accumulate bs s with
      fbuf := ((s.fbuf.write 0 s.addr).write 1 s.fc).writeRange (2 + s.plen.toNat) (checkBytes s.mode bs)
      flen := BitVec.ofNat 16 (frameLength s) })
  | exception (code : Byte) (bs : List Byte) :
    Leaves s (.encExc code) (setSuccess { accumulate bs s with
      fbuf := (((s.fbuf.write 0 s.addr).write 1 (s.fc ||| 0x80#8)).write 2 code).writeRange 3 (checkBytes s.mode bs)
      plen := 1#16
      flen := BitVec.ofNat 16 (3 + checkWidth s.mode) })
  | decode (bs : List Byte) (a f e : Byte) (n : Half) :
    Leaves s .decode (setSuccess { accumulate bs s with
      addr := a
      fc := f
      plen := n
      excf := f.getLsbD 7
      excode := e })
  | clrErr : Leaves s .clrErr (setSuccess { s with errAcc := false })

theorem exec_leaves {i : Instr} {s t : State} (h : exec i s = .next t) : Leaves s i t := by
  have payload : ∀ i, i = .encQuery ∨ i = .encResp → encodePayload s = .next t → Leaves s i t := by
    intro i hi h
    rcases encodePayload_next h with ⟨-, rfl⟩ | ⟨hfits, bs, -, rfl⟩
    · exact .failure i _
    · exact .payload hi bs hfits
  cases i with
  | crcInit => cases h; exact .crc (.inl rfl) _
  | crcByte b => cases h; exact .crc (.inr (.inl ⟨b, rfl⟩)) _
  | crcBuf =>
    rcases useBuffer_next h with ⟨-, rfl⟩ | ⟨-, bs, -, h⟩
    · exact .failure _ _
    · cases h; exact .crc (.inr (.inr rfl)) _
  | lrcInit => cases h; exact .sum (.inl rfl) _
  | lrcByte b => cases h; exact .sum (.inr (.inl ⟨b, rfl⟩)) _
  | lrcBuf =>
    rcases useBuffer_next h with ⟨-, rfl⟩ | ⟨-, bs, -, h⟩
    · exact .failure _ _
    · cases h; exact .sum (.inr (.inr rfl)) _
  | encQuery => exact payload _ (.inl rfl) h
  | encResp => exact payload _ (.inr rfl) h
  | encExc code =>
    obtain ⟨bs, -, rfl⟩ := execEncExc_next h
    exact .exception code bs
  | decode =>
    rcases execDecode_next h with
      ⟨-, rfl⟩ | ⟨-, -, rfl⟩ | ⟨-, -, bs, cs, -, -, ⟨-, rfl⟩ | ⟨-, a, f, e, -, -, -, rfl⟩⟩
    · exact .failure _ _
    · exact .failure _ _
    · exact .failure _ _
    · exact .decode bs a f e _
  | clrErr => cases h; exact .clrErr

theorem isEncoder_of_payload {i : Instr} (h : i = .encQuery ∨ i = .encResp) : IsEncoder i := h.imp_right .inl

/-! ## The writers of each register (10_state.md R18 to R27) -/

theorem rtu_of_accumulate_crc_ne {bs : List Byte} {s : State} (h : (accumulate bs s).crc ≠ s.crc) : s.mode = .rtu := by
  by_contra hm
  exact h (by rw [accumulate_crc, if_neg hm])

theorem ascii_of_accumulate_sum_ne {bs : List Byte} {s : State} (h : (accumulate bs s).sum ≠ s.sum) :
    s.mode = .ascii := by
  cases hm : s.mode with
  | rtu => exact absurd (by rw [accumulate_sum, if_pos hm]) h
  | ascii => rfl

/-- Settles O26: each outcome of a command changes the registers of its own kind only. -/
theorem onlyTheNamedCommandsWriteEachRegister : Obligations.OnlyTheNamedCommandsWriteEachRegister := by
  intro w s t h
  rcases runCommand_cases w s with ⟨i, hw, hrun⟩ | ⟨e, -, hrun⟩ <;> rw [hrun] at h
  · cases exec_leaves h with
    | failure _ e => simp
    | crc hi c => exact ⟨fun _ => ⟨i, hw, hi.imp_right (Or.imp_right .inl)⟩, by simp⟩
    | sum hi x => exact ⟨by simp, fun _ => ⟨i, hw, hi.imp_right (Or.imp_right .inl)⟩, by simp⟩
    | payload hi bs hfits =>
      have henc := isEncoder_of_payload hi
      exact ⟨fun hne => ⟨i, hw, .inr (.inr (.inr ⟨rtu_of_accumulate_crc_ne hne, rfl, .inl henc⟩))⟩,
        fun hne => ⟨i, hw, .inr (.inr (.inr ⟨ascii_of_accumulate_sum_ne hne, rfl, .inl henc⟩))⟩,
        by simp, by simp, fun _ => ⟨i, hw, henc, rfl⟩, by simp⟩
    | exception code bs =>
      have henc : IsEncoder (.encExc code) := .inr (.inr ⟨code, rfl⟩)
      exact ⟨fun hne => ⟨_, hw, .inr (.inr (.inr ⟨rtu_of_accumulate_crc_ne hne, rfl, .inl henc⟩))⟩,
        fun hne => ⟨_, hw, .inr (.inr (.inr ⟨ascii_of_accumulate_sum_ne hne, rfl, .inl henc⟩))⟩,
        by simp, fun _ => .inr ⟨code, hw⟩, fun _ => ⟨_, hw, henc, rfl⟩, by simp⟩
    | decode bs a f e n =>
      exact ⟨fun hne => ⟨_, hw, .inr (.inr (.inr ⟨rtu_of_accumulate_crc_ne hne, rfl, .inr rfl⟩))⟩,
        fun hne => ⟨_, hw, .inr (.inr (.inr ⟨ascii_of_accumulate_sum_ne hne, rfl, .inr rfl⟩))⟩,
        fun _ => ⟨hw, rfl⟩, fun _ => .inl hw, by simp, by simp⟩
    | clrErr => simp
  · cases h
    simp

/-! ## The bytes each command stores (10_state.md R27, 41_frame_codec.md R69 to R72) -/

/-- A command that is no encoder, or fails, leaves FBUF. -/
theorem exec_keeps_fbuf {i : Instr} {s t : State} (h : exec i s = .next t) (hi : ¬IsEncoder i ∨ t.err = true) :
    t.fbuf = s.fbuf := by
  cases exec_leaves h with
  | failure | crc | sum | clrErr => rfl
  | decode bs => exact accumulate_fbuf bs s
  | payload henc => simp [isEncoder_of_payload henc] at hi
  | exception code => simp [IsEncoder] at hi

/-- Settles O27: the header and the check bytes are all that an encoder stores. -/
theorem commandsStoreOnlyHeaderAndCheckBytes : Obligations.CommandsStoreOnlyHeaderAndCheckBytes := by
  refine ⟨?_, ?_, fun i s t h hi j => congrArg (Memory.read · j) (exec_keeps_fbuf h hi)⟩
  · intro i s t hi h herr j h0 h1 hj
    have hpay : encodePayload s = .next t := by rcases hi with rfl | rfl <;> exact h
    rcases encodePayload_next hpay with ⟨-, rfl⟩ | ⟨-, bs, -, rfl⟩
    · simp at herr
    · rw [setSuccess_fbuf, read_writeRange_other _ _ _ (by simpa [frameLength] using hj), read_write_other _ _ h1,
        read_write_other _ _ h0]
  · intro code s t h
    obtain ⟨t', h', -, hrest, -⟩ := execEncExc_frame s code
    obtain rfl : t' = t := Host.Outcome.next.inj (h'.symm.trans h)
    exact hrest

/-! ## Commands on written bytes (70_reset_and_hazards.md R102) -/

/-- A range is written, or one of its bytes is not. -/
theorem rangeWritten_or_unwritten (s : State) (i n : Nat) :
    RangeWritten s i n ∨ ∃ k, i ≤ k ∧ k < i + n ∧ s.fbuf.read k = none := by
  cases hr : s.fbuf.readRange i n with
  | ok bs =>
    obtain ⟨hlen, hget⟩ := (readRange_ok_iff _ _ _ _).1 hr
    exact .inl fun k hk => by rw [hget k (hlen ▸ hk)]; rfl
  | error j =>
    obtain ⟨hij, hjn, hj, -⟩ := readRange_error hr
    exact .inr ⟨j, hij, hjn, hj⟩

theorem exists_bytesAt_of_rangeWritten {s : State} {i n : Nat} (h : RangeWritten s i n) :
    ∃ bs : List Byte, bs.length = n ∧ BytesAt s i bs := by
  obtain ⟨bs, hbs⟩ := readRange_of_written h
  exact ⟨bs, (readRange_ok_iff _ _ _ _).1 hbs⟩

/-- `*_BUF` on a written range ends: in PayloadTooLarge, or in what follows the bytes. -/
theorem useBuffer_completes {s : State} (h : BufferWritten s) {next : List Byte → Out}
    (hnext : ∀ bs, ∃ t, next bs = .next t) : ∃ t, useBuffer s next = .next t := by
  by_cases hcap : capacity s < s.flen.toNat
  · exact ⟨_, useBuffer_tooLarge hcap next⟩
  · obtain ⟨bs, hlen, hbytes⟩ := exists_bytesAt_of_rangeWritten h
    obtain ⟨t, ht⟩ := hnext bs
    exact ⟨t, (useBuffer_of_bytesAt hlen.symm (by omega) hbytes next).trans ht⟩

/-- DECODE of a written range ends: in one of its errors, or in an accepted frame. -/
theorem execDecode_completes {s : State} (h : BufferWritten s) : ∃ t, execDecode s = .next t := by
  by_cases hcap : capacity s < s.flen.toNat
  · exact ⟨_, execDecode_tooLarge hcap⟩
  by_cases hshort : s.flen.toNat < 2 + checkWidth s.mode
  · exact ⟨_, execDecode_tooShort hshort⟩
  obtain ⟨bs, hlen, hbytes⟩ := exists_bytesAt_of_rangeWritten h
  rw [← List.take_append_drop (s.flen.toNat - checkWidth s.mode) bs] at hbytes
  obtain ⟨hp, hc⟩ := bytesAt_append hbytes
  rw [Nat.zero_add] at hc
  have hrun := execDecode_run (by simp; omega) (by simp; omega) (by simp; omega) (by omega) (readRange_of_bytesAt hp)
    (readRange_of_bytesAt hc)
  split at hrun
  · exact ⟨_, hrun⟩
  · exact ⟨_, hrun⟩

/-- ENC_QUERY and ENC_RESP on a written payload end: in PayloadTooLarge, or in the frame. -/
theorem encodePayload_completes {s : State} (h : PayloadWritten s) : ∃ t, encodePayload s = .next t := by
  by_cases hcap : capacity s < frameLength s
  · exact ⟨_, encodePayload_tooLarge hcap⟩
  · obtain ⟨q, hlen, hq⟩ := exists_bytesAt_of_rangeWritten h
    exact ⟨_, encodePayload_run hlen (readRange_of_bytesAt hq) (by omega)⟩

/-- Settles O32: on written bytes every use of them goes on, and the six other commands use no byte unwritten. -/
theorem preparedCommandsComplete : Obligations.PreparedCommandsComplete := by
  refine ⟨?_, ?_, ?_⟩
  · rintro i s (rfl | rfl) h
    · exact encodePayload_completes h
    · exact encodePayload_completes h
  · rintro i s (rfl | rfl | rfl) h
    · exact execDecode_completes h
    · exact useBuffer_completes h fun _ => ⟨_, rfl⟩
    · exact useBuffer_completes h fun _ => ⟨_, rfl⟩
  · rintro i s (rfl | ⟨b, rfl⟩ | rfl | ⟨b, rfl⟩ | ⟨code, rfl⟩ | rfl)
    · exact ⟨_, rfl, rfl⟩
    · exact ⟨_, rfl, rfl⟩
    · exact ⟨_, rfl, rfl⟩
    · exact ⟨_, rfl, rfl⟩
    · exact ⟨_, execEncExc_run s code, rfl⟩
    · exact ⟨_, rfl, rfl⟩

/-! ## Where a command stops (60_exceptions.md R86, 10_state.md R28) -/

/-- The two ways an outcome can be one of a command from `s`: a next state, or the fault of an unwritten byte of the
buffer. -/
def EndsOrStops (o : Out) (s : State) : Prop :=
  (∃ t, o = .next t) ∨ ∃ j, j < capacity s ∧ s.fbuf.read j = none ∧ o = .fault (.unwrittenBuffer j)

theorem endsOrStops_of_stopsOnUnwritten {o : Out} {s : State} {i n : Nat} (hcap : i + n ≤ capacity s)
    (h : StopsOnUnwritten o s i n) : EndsOrStops o s := by
  obtain ⟨j, -, hjn, hj, ho⟩ := h
  exact .inr ⟨j, by omega, hj, ho⟩

theorem useBuffer_endsOrStops (s : State) {next : List Byte → Out} (hnext : ∀ bs, ∃ t, next bs = .next t) :
    EndsOrStops (useBuffer s next) s := by
  rcases rangeWritten_or_unwritten s 0 s.flen.toNat with h | ⟨k, -, hk, hnone⟩
  · exact .inl (useBuffer_completes h hnext)
  · by_cases hcap : capacity s < s.flen.toNat
    · exact .inl ⟨_, useBuffer_tooLarge hcap next⟩
    · exact endsOrStops_of_stopsOnUnwritten (by omega)
        (useBuffer_stopsOnUnwritten (by omega) (by omega) hnone next)

theorem encodePayload_endsOrStops (s : State) : EndsOrStops (encodePayload s) s := by
  rcases rangeWritten_or_unwritten s 2 s.plen.toNat with h | ⟨k, h2, hk, hnone⟩
  · exact .inl (encodePayload_completes h)
  · by_cases hcap : capacity s < frameLength s
    · exact .inl ⟨_, encodePayload_tooLarge hcap⟩
    · exact endsOrStops_of_stopsOnUnwritten (by unfold frameLength at hcap; omega)
        (encodePayload_stopsOnUnwritten (by omega) h2 hk hnone)

theorem execDecode_endsOrStops (s : State) : EndsOrStops (execDecode s) s := by
  rcases rangeWritten_or_unwritten s 0 s.flen.toNat with h | ⟨k, -, hk, hnone⟩
  · exact .inl (execDecode_completes h)
  by_cases hcap : capacity s < s.flen.toNat
  · exact .inl ⟨_, execDecode_tooLarge hcap⟩
  by_cases hshort : s.flen.toNat < 2 + checkWidth s.mode
  · exact .inl ⟨_, execDecode_tooShort hshort⟩
  · exact endsOrStops_of_stopsOnUnwritten (by omega)
      (execDecode_stopsOnUnwritten (by omega) (by omega) (by omega) hnone)

theorem exec_endsOrStops (i : Instr) (s : State) : EndsOrStops (exec i s) s := by
  cases i with
  | crcInit | crcByte | lrcInit | lrcByte | clrErr => exact .inl ⟨_, rfl⟩
  | crcBuf | lrcBuf => exact useBuffer_endsOrStops s fun _ => ⟨_, rfl⟩
  | encQuery | encResp => exact encodePayload_endsOrStops s
  | encExc code => exact .inl ⟨_, execEncExc_run s code⟩
  | decode => exact execDecode_endsOrStops s

theorem runCommand_endsOrStops (w : Word) (s : State) : EndsOrStops (runCommand w s) s := by
  rcases runCommand_cases w s with ⟨i, -, hrun⟩ | ⟨e, -, hrun⟩ <;> rw [hrun]
  · exact exec_endsOrStops i s
  · exact .inl ⟨_, rfl⟩

theorem ne_refused_of_endsOrStops {o : Out} {s : State} (h : EndsOrStops o s) (r : Refusal) : o ≠ .refused r := by
  rcases h with ⟨t, rfl⟩ | ⟨j, -, -, rfl⟩ <;> simp

/-- Settles O31: a command ends, or stops on an unwritten byte. -/
theorem commandsStopOnlyOnUnwrittenBytes : Obligations.CommandsStopOnlyOnUnwrittenBytes := by
  refine ⟨?_, fun i s => ne_refused_of_endsOrStops (exec_endsOrStops i s),
    fun w s => ne_refused_of_endsOrStops (runCommand_endsOrStops w s)⟩
  intro i s f h
  rcases exec_endsOrStops i s with ⟨t, ht⟩ | ⟨j, hcap, hj, hstop⟩
  · rw [ht] at h
    cases h
  · rw [hstop] at h
    cases h
    exact ⟨j, rfl, hcap, hj⟩

/-! ## The index a fault names (log entry 4) -/

theorem useBytes_of_firstUnwritten {s : State} {i n j : Nat} (h : FirstUnwritten s i n j) (next : List Byte → Out) :
    useBytes s.fbuf i n next = .fault (.unwrittenBuffer j) := by
  rw [useBytes, readRange_of_firstUnwritten h]

theorem useBuffer_of_firstUnwritten {s : State} {j : Nat} (hcap : s.flen.toNat ≤ capacity s)
    (h : FirstUnwritten s 0 s.flen.toNat j) (next : List Byte → Out) :
    useBuffer s next = .fault (.unwrittenBuffer j) :=
  (useBuffer_of_fits hcap next).trans (useBytes_of_firstUnwritten h next)

/-- `check_ok(n)` reads the frame in rising order, the check bytes last. -/
theorem checkOk_of_firstUnwritten {s : State} {n j : Nat} (hw : checkWidth s.mode ≤ n) (h : FirstUnwritten s 0 n j)
    (next : Bool → Out) : checkOk n s next = .fault (.unwrittenBuffer j) := by
  obtain ⟨h0, hjn, hj, hbelow⟩ := h
  by_cases hbody : j < n - checkWidth s.mode
  · exact useBytes_of_firstUnwritten ⟨h0, by omega, hj, hbelow⟩ _
  · have hwritten : RangeWritten s 0 (n - checkWidth s.mode) := fun k hk => hbelow _ (by omega) (by omega)
    obtain ⟨bs, hbs⟩ := readRange_of_written hwritten
    rw [checkOk, useBytes_of_ok hbs]
    exact useBytes_of_firstUnwritten ⟨by omega, by omega, hj, fun k _ hk => hbelow k (Nat.zero_le k) hk⟩ _

theorem execDecode_of_firstUnwritten {s : State} {j : Nat} (hlong : 2 + checkWidth s.mode ≤ s.flen.toNat)
    (hcap : s.flen.toNat ≤ capacity s) (h : FirstUnwritten s 0 s.flen.toNat j) :
    execDecode s = .fault (.unwrittenBuffer j) := by
  rw [execDecode, if_neg (by omega), if_neg (by omega)]
  exact checkOk_of_firstUnwritten (by omega) h _

/-- The two header bytes are stored before the frame is read, so its lowest unwritten byte is that of the payload. -/
theorem encodePayload_of_firstUnwritten {s : State} {j : Nat} (hcap : frameLength s ≤ capacity s)
    (h : FirstUnwritten s 2 s.plen.toNat j) : encodePayload s = .fault (.unwrittenBuffer j) := by
  obtain ⟨h2, hjn, hj, hbelow⟩ := h
  rw [encodePayload, if_neg (by omega)]
  refine useBytes_of_firstUnwritten (s := { s with fbuf := (s.fbuf.write 0 s.addr).write 1 s.fc })
    ⟨Nat.zero_le j, by omega, ?_, fun k _ hk => ?_⟩ _
  · rw [read_write_other _ _ (by omega), read_write_other _ _ (by omega), hj]
  · rw [read_write, read_write]
    split
    · rfl
    split
    · rfl
    · exact hbelow k (by omega) hk

/-- Settles O57: a command reads its range in rising order, so it stops on the lowest unwritten byte. -/
theorem commandFaultsNameTheLowestUnwrittenByte : Obligations.CommandFaultsNameTheLowestUnwrittenByte :=
  ⟨fun _ _ hcap h => ⟨useBuffer_of_firstUnwritten hcap h _, useBuffer_of_firstUnwritten hcap h _⟩,
    fun _ _ hlong hcap h => execDecode_of_firstUnwritten hlong hcap h,
    fun _ _ hcap h => ⟨encodePayload_of_firstUnwritten hcap h, encodePayload_of_firstUnwritten hcap h⟩⟩

end Sys2Proof.Proofs
end

section
/-! The host port: reserved addresses, the widths of an access, the map right after reset, a command that reset cuts
short. -/

namespace Sys2Proof.Proofs

open Sys2Proof.Machine Sys2Proof.Claims

/-! ## Addresses (20_memory.md R32) -/

/-- Settles O41: the base is a multiple of 2^17, so it adds nothing to the low 17 bits. -/
theorem offsetIsTheLow17BitsOfTheHostAddress : Obligations.OffsetIsTheLow17BitsOfTheHostAddress := by
  intro k a ha
  rw [blockOffset, BitVec.toNat_ofNat]
  omega

/-- Settles O38: above the register page and off the buffer there is neither a register nor an index. -/
theorem reservedAddressesRaiseBusErrors : Obligations.ReservedAddressesRaiseBusErrors := by
  intro s a n v rest ha
  have hreg : regAccess? a.toNat n = none := regAccess?_eq_none (by omega)
  have hwin : windowAccess? s a.toNat n = none := by
    refine windowAccess?_of_refused fun i hi => ?_
    rintro ⟨hn, -, hcap⟩
    omega
  exact ⟨step_read_refused (by simp [hreg]) hwin, step_write_refused (by simp [hreg]) hwin⟩

/-! ## Widths (20_memory.md R34) -/

/-- Packing the low bytes of a word gives its low bits. -/
theorem packBytes_splitBytes {n : Nat} (hn : n ≤ 4) (v : Word) :
    packBytes (splitBytes n v) = (v.extractLsb' 0 (8 * n)).setWidth 32 := by
  induction n generalizing v with
  | zero => simp [splitBytes, packBytes]
  | succ n ih =>
    rw [splitBytes, packBytes, ih (by omega)]
    apply BitVec.eq_of_getLsbD_eq
    intro i hi
    by_cases h8 : i < 8
    · simp [h8, hi, show i < 8 * (n + 1) by omega]
    · simp [h8, hi, show i - 8 < 32 by omega, show i - 8 < 8 * n ↔ i < 8 * (n + 1) by omega,
        show 8 + (i - 8) = i by omega]

/-- The bytes of a word from byte `o` on. -/
theorem bytesAt_shifted_word {t : State} {i o n : Nat} {v : Word} (h : BytesAt t i (splitBytes 4 v)) (hon : o + n ≤ 4) :
    BytesAt t (i + o) (splitBytes n (v >>> (8 * o))) := by
  intro k hk
  rw [splitBytes_length] at hk
  have hbyte := h (o + k) (by rw [splitBytes_length]; omega)
  rw [splitBytes_getElem, ← Nat.add_assoc] at hbyte
  rw [hbyte, splitBytes_getElem]
  congr 1
  apply BitVec.eq_of_getLsbD_eq
  intro j hj
  simp [hj, Nat.mul_add, Nat.add_assoc]

/-- A read of `n` bytes of a word in the buffer, from its byte `o` on. -/
theorem busRead_part_of_word {t : State} {a : BlockAddr} {i o n : Nat} {v : Word} (h : BytesAt t i (splitBytes 4 v))
    (ha : a.toNat = 0x10000 + i) (hi : i % 4 = 0) (hcap : i + 4 ≤ capacity t) (hn : n = 1 ∨ n = 2 ∨ n = 4)
    (ho : o % n = 0) (hon : o + n ≤ 4) :
    busRead (a + BitVec.ofNat 17 o) n t =
      .next { t with reply := .data ((v.extractLsb' (8 * o) (8 * n)).setWidth 32) } := by
  have hfits : capacity t ≤ 65535 := t.cfg.fitsLength
  have haddr : (a + BitVec.ofNat 17 o).toNat = 0x10000 + (i + o) := by
    rw [BitVec.toNat_add, BitVec.toNat_ofNat, ha]
    omega
  have haligned : (a + BitVec.ofNat 17 o).toNat % n = 0 := by
    rw [haddr]
    rcases hn with rfl | rfl | rfl <;> omega
  have hpart := readRange_of_bytesAt (bytesAt_shifted_word h hon)
  rw [splitBytes_length] at hpart
  have hlow : (v >>> (8 * o)).extractLsb' 0 (8 * n) = v.extractLsb' (8 * o) (8 * n) := by
    apply BitVec.eq_of_getLsbD_eq
    simp
  rw [busRead_window (windowAccess?_of_admitted haddr ⟨hn, haligned, by omega⟩), useBytes_of_ok hpart,
    packBytes_splitBytes (by omega), hlow]

/-- Settles O40: a word write stores the word's bytes from the least significant on, and a read of any width packs its
bytes the same way. -/
theorem mixedWidthAccessesAreLittleEndian : Obligations.MixedWidthAccessesAreLittleEndian := by
  intro s a i v rest h ha hi hcap
  have hwin := windowAccess?_of_admitted (s := s) ha ⟨.inr (.inr rfl), by omega, hcap⟩
  have hbytes : BytesAt { s with pending := rest, reply := .done, fbuf := s.fbuf.writeRange i (splitBytes 4 v) } i
      (splitBytes 4 v) := fun _ hk => read_writeRange_inside s.fbuf i _ hk
  refine ⟨_, step_writeWindow hwin h, fun k hk => ?_, ?_, ?_, ?_⟩
  · exact busRead_part_of_word hbytes ha hi hcap (.inl rfl) (Nat.mod_one k) (by omega)
  · simpa using busRead_part_of_word (o := 0) hbytes ha hi hcap (.inr (.inl rfl)) rfl (by decide)
  · exact busRead_part_of_word (o := 2) hbytes ha hi hcap (.inr (.inl rfl)) rfl (by decide)
  · simpa using busRead_part_of_word (o := 0) hbytes ha hi hcap (.inr (.inr rfl)) rfl (by decide)

/-! ## The map right after reset (10_state.md R12) -/

/-- Right after reset a read of a readable register answers what the register reads as. -/
theorem nextOf_step_reset_read {r : RegName} (hr : regReadable r = true) :
    nextOf (step { State.reset with pending := [.read (BitVec.ofNat 17 (regOffset r)) 4] }) =
      some { State.reset with reply := .data (readReg r State.reset) } := by
  rw [step_readReg (rest := []) hr ⟨rfl, rfl⟩, nextOf]
  cases r <;> rfl

/-- Settles O34: the ten readable registers one by one, and CMD, which is not readable. -/
theorem registerMapReadsItsResetValues : Obligations.RegisterMapReadsItsResetValues := by
  refine ⟨?_, rfl⟩
  simp only [List.forall_mem_cons]
  exact ⟨nextOf_step_reset_read (r := .status) rfl, nextOf_step_reset_read (r := .mode) rfl,
    nextOf_step_reset_read (r := .crc) rfl, nextOf_step_reset_read (r := .lrc) rfl,
    nextOf_step_reset_read (r := .addr) rfl, nextOf_step_reset_read (r := .fc) rfl,
    nextOf_step_reset_read (r := .plen) rfl, nextOf_step_reset_read (r := .flen) rfl,
    nextOf_step_reset_read (r := .excode) rfl, nextOf_step_reset_read (r := .cap) rfl, fun _ h => nomatch h⟩

/-! ## A command that reset cuts short (70_reset_and_hazards.md R100) -/

theorem step_abandonedWrite {s : State} {w : Word} {rest : List HostEvent} (h : Takes s (.abandonedWrite w) rest) :
    step s = .next { holdInReset { s with pending := rest } with reply := .noCompletion } := by
  obtain ⟨hreset, hp⟩ := h
  rw [step_of_cons hp]
  simp [serve, hreset, runAccepted]

theorem read_eq_none_of_atResetValues {s : State} (h : AtResetValues s) (j : Nat) : s.fbuf.read j = none := by
  obtain ⟨-, -, -, -, -, -, -, -, -, -, -, -, hfbuf⟩ := h
  rw [hfbuf, read_nil]

/-- Settles O45: the abandoned write leaves the block held in reset, and the release that follows leaves it reset. -/
theorem resetAbandonsTheRunningCommand : Obligations.ResetAbandonsTheRunningCommand := by
  intro s w rest h
  have hvalues : AtResetValues { holdInReset { s with pending := rest } with reply := .noCompletion } :=
    atResetValues_holdInReset { s with pending := rest }
  refine ⟨_, step_abandonedWrite h, hvalues, rfl, rfl, rfl, rfl, fun j => read_nil j, ?_⟩
  rintro rest' rfl
  obtain ⟨u, hstep, hvalues', -, hreleased, hrest⟩ :=
    exists_step_releaseReset (s := { holdInReset { s with pending := .releaseReset :: rest' } with reply := .noCompletion })
      rfl rfl
  exact ⟨u, hstep, hvalues', hreleased, hrest, read_eq_none_of_atResetValues hvalues'⟩

end Sys2Proof.Proofs
end

section
/-! The invariants: the buffer, STATUS and the reset values over every step, and the host that respects reset over every
run. -/

namespace Sys2Proof.Proofs

open Sys2Proof.Machine Sys2Proof.Claims

/-! ## The buffer (10_state.md R27) -/

/-- Storing bytes inside CAP keeps the buffer canonical and inside CAP. -/
theorem bufferInv_writeRange {s : State} (h : BufferInv s) {i : Nat} {bs : List Byte} (hi : i + bs.length ≤ capacity s) :
    BufferInv { s with fbuf := s.fbuf.writeRange i bs } := by
  obtain ⟨hwf, hin⟩ := h
  refine ⟨writeRange_wf hwf i bs, fun c hc => ?_⟩
  rcases mem_writeRange hc with hold | ⟨-, hnew⟩
  · exact hin c hold
  · exact hnew.trans_le hi

theorem bufferInv_write {s : State} (h : BufferInv s) {i : Nat} (b : Byte) (hi : i < capacity s) :
    BufferInv { s with fbuf := s.fbuf.write i b } := bufferInv_writeRange h (bs := [b]) hi

/-- Only FBUF and CAP matter to the invariant of the buffer. -/
theorem bufferInv_congr {s t : State} (h : BufferInv s) (hfbuf : t.fbuf = s.fbuf) (hcfg : t.cfg = s.cfg) :
    BufferInv t := by
  unfold BufferInv capacity
  rw [hfbuf, hcfg]
  exact h

/-- A command keeps the buffer canonical and inside CAP: an encoder stores below the length of its frame. -/
theorem exec_bufferInv {i : Instr} {s t : State} (hinv : BufferInv s) (h : exec i s = .next t) : BufferInv t := by
  have hcfg := exec_cfg h
  have hmin : 2 + checkWidth s.mode < s.cfg.maxPacketSize := shortestFrame_lt_capacity s
  have header : ∀ f, BufferInv { s with fbuf := (s.fbuf.write 0 s.addr).write 1 f } := fun f =>
    bufferInv_write (bufferInv_write hinv s.addr (show 0 < s.cfg.maxPacketSize by omega)) f
      (show 1 < s.cfg.maxPacketSize by omega)
  cases exec_leaves h with
  | failure | crc | sum | clrErr => exact bufferInv_congr hinv rfl hcfg
  | decode bs => exact bufferInv_congr hinv (accumulate_fbuf bs s) hcfg
  | payload _ bs hfits =>
    have hstore := bufferInv_writeRange (header s.fc) (i := 2 + s.plen.toNat) (bs := checkBytes s.mode bs)
      (by rw [checkBytes_length]; exact hfits)
    exact bufferInv_congr hstore rfl hcfg
  | exception code bs =>
    have hcode := bufferInv_write (header (s.fc ||| 0x80#8)) code (show 2 < s.cfg.maxPacketSize by omega)
    have hstore := bufferInv_writeRange hcode (i := 3) (bs := checkBytes s.mode bs)
      (by rw [checkBytes_length]; exact (show 3 + checkWidth s.mode ≤ s.cfg.maxPacketSize by omega))
    exact bufferInv_congr hstore rfl hcfg

/-! ## The block's invariant (70_reset_and_hazards.md R97) -/

/-- A command word leaves STATUS consistent, whatever it was. -/
theorem runCommand_statusInv {w : Word} {s t : State} (h : runCommand w s = .next t) : StatusInv t := by
  rcases runCommand_ends h with ⟨e, rfl⟩ | ⟨i, -, -, herr, hcode, -⟩
  · refine ⟨errorCode_le_four e, ⟨fun _ hzero => ?_, fun _ => rfl⟩, fun _ => rfl⟩
    have hpos := one_le_errorCode e
    rw [setFailure_errCode] at hzero
    simp [hzero] at hpos
  · simp [StatusInv, herr, hcode]

/-- A command word, run with the reset input released, keeps the invariant. -/
theorem runCommand_blockInv {w : Word} {s t : State} (hreset : s.inReset = false) (hinv : BufferInv s)
    (h : runCommand w s = .next t) : BlockInv t := by
  obtain ⟨-, hkept, -⟩ := runCommand_keeps_port h
  have hbuffer : BufferInv t := by
    rcases runCommand_ends h with ⟨e, rfl⟩ | ⟨i, -, hexec, -⟩
    · exact hinv
    · exact exec_bufferInv hinv hexec
  exact ⟨hbuffer, runCommand_statusInv h, fun hasserted => by simp [hkept, hreset] at hasserted⟩

/-- The reset values meet the invariant, at either level of the reset input. -/
theorem blockInv_of_atResetValues {s : State} (h : AtResetValues s) : BlockInv s := by
  have ⟨_, _, _, _, _, _, _, _, herr, _, _, hcode, hfbuf⟩ := h
  refine ⟨?_, ?_, fun _ => h⟩
  · simp [BufferInv, Memory.wf, hfbuf]
  · simp [StatusInv, herr, hcode]

/-- Settles O48: reset leaves the reset values. -/
theorem resetMeetsTheBlockInvariant : Obligations.ResetMeetsTheBlockInvariant :=
  blockInv_of_atResetValues ⟨rfl, rfl, rfl, rfl, rfl, rfl, rfl, rfl, rfl, rfl, rfl, rfl, rfl⟩

theorem blockInv_leaveReset {s : State} (h : BlockInv s) : BlockInv (leaveReset s) := by
  cases hreset : s.inReset with
  | true => exact blockInv_of_atResetValues (atResetValues_leaveReset hreset)
  | false =>
    rw [leaveReset_of_released s hreset]
    exact h

/-- Settles O47: an access keeps the invariant, and the events of the reset input leave the reset values. -/
theorem everyStepKeepsTheBlockInvariant : Obligations.EveryStepKeepsTheBlockInvariant := by
  intro s t hinv h
  have ⟨hbuffer, hstatus, _⟩ := hinv
  rcases step_cases h with ⟨-, rfl⟩ | ⟨e, rest, -, ⟨a, n, -, -, hread⟩ | ⟨a, n, v, -, hreset, hwrite⟩ | ⟨-, rfl⟩ |
    ⟨-, rfl⟩ | ⟨v, -, -, rfl⟩⟩
  · exact hinv
  · rw [busRead_keeps hread]
    exact hinv
  · rcases hwrite with ⟨-, hrun⟩ | ⟨r, -, -, -, rfl⟩ | ⟨i, hwin, rfl⟩
    · exact runCommand_blockInv (s := { s with pending := rest, reply := .done }) hreset hbuffer hrun
    · refine ⟨bufferInv_congr hbuffer (writeReg_fbuf r v _) (writeReg_cfg r v _), ?_, ?_⟩
      · simpa [StatusInv] using hstatus
      · simp [ResetInv, hreset]
    · obtain ⟨-, -, -, hfits⟩ := windowAccess?_eq_some hwin
      refine ⟨bufferInv_writeRange hbuffer (by rwa [splitBytes_length]), hstatus, ?_⟩
      simp [ResetInv, hreset]
  · exact blockInv_of_atResetValues (atResetValues_holdInReset _)
  · exact blockInv_leaveReset (s := { s with pending := rest }) hinv
  · exact blockInv_of_atResetValues (atResetValues_holdInReset { s with pending := rest })

/-! ## Hosts that respect reset (60_exceptions.md R96, row H9) -/

theorem runCommand_ne_accessInReset (w : Word) (s : State) : runCommand w s ≠ .fault .accessInReset := by
  rcases runCommand_endsOrStops w s with ⟨t, ht⟩ | ⟨j, -, -, hstop⟩
  · simp [ht]
  · simp [hstop]

/-- A read is refused, or stops on an unwritten byte, or is answered. -/
theorem busRead_ne_accessInReset (a : BlockAddr) (n : Nat) (s : State) : busRead a n s ≠ .fault .accessInReset := by
  unfold busRead
  split
  · split <;> simp [refuse]
  · split
    · intro h
      rcases useBytes_fault h with ⟨j, -, hf⟩ | ⟨bs, -, hf⟩ <;> cases hf
    · simp [refuse]

/-- With the reset input released no event ends in `accessInReset`. -/
theorem step_ne_accessInReset {s : State} (hreset : s.inReset = false) : step s ≠ .fault .accessInReset := by
  cases hp : s.pending with
  | nil => simp [step_of_nil hp]
  | cons e rest =>
    cases e with
    | read a n =>
      rw [step_read hreset hp]
      exact busRead_ne_accessInReset a n _
    | write a n v =>
      rw [step_write hreset hp]
      rcases busWrite_cases a n v { s with pending := rest } with ⟨-, h⟩ | ⟨r, -, -, -, h⟩ | ⟨i, -, h⟩ | h <;> rw [h]
      · exact runCommand_ne_accessInReset v _
      · simp [runAccepted]
      · simp [runAccepted]
      · simp [runAccepted]
    | assertReset => simp [step_assertReset hp]
    | releaseReset => simp [step_releaseReset hp]
    | abandonedWrite v => simp [step_abandonedWrite ⟨hreset, hp⟩]

/-- The host of `s` respects reset from here on (duty H9). -/
def HostRespectsReset (s : State) : Prop := hostRespectsReset s.inReset s.pending = true

/-- An access that such a host makes finds the reset input released. -/
theorem step_safe_of_hostRespectsReset {s : State} (h : HostRespectsReset s) : step s ≠ .fault .accessInReset := by
  cases hreset : s.inReset with
  | false => exact step_ne_accessInReset hreset
  | true =>
    rw [HostRespectsReset, hreset] at h
    cases hp : s.pending with
    | nil => simp [step_of_nil hp]
    | cons e rest =>
      rw [hp] at h
      cases e with
      | read | write | abandonedWrite => simp [hostRespectsReset] at h
      | assertReset => simp [step_assertReset hp]
      | releaseReset => simp [step_releaseReset hp]

theorem leaveReset_port (s : State) : (leaveReset s).pending = s.pending ∧ (leaveReset s).inReset = false := by
  cases h : s.inReset with
  | true => exact ⟨leaveReset_pending s h, leaveReset_inReset s h⟩
  | false =>
    rw [leaveReset_of_released s h]
    exact ⟨rfl, h⟩

/-- The level of the reset input after an event, `asserted` before it. -/
def resetLevelAfter (asserted : Bool) : HostEvent → Bool
  | .read _ _ | .write _ _ _ => asserted
  | .assertReset | .abandonedWrite _ => true
  | .releaseReset => false

/-- A step takes its event, and the reset input moves as the event says. -/
theorem step_port {s t : State} {e : HostEvent} {rest : List HostEvent} (hp : s.pending = e :: rest)
    (h : step s = .next t) : t.pending = rest ∧ t.inReset = resetLevelAfter s.inReset e := by
  rcases step_cases h with ⟨hnil, -⟩ | ⟨e', rest', hp', hserved⟩
  · simp [hnil] at hp
  obtain ⟨rfl, rfl⟩ := List.cons.inj (hp'.symm.trans hp)
  rcases hserved with ⟨a, n, rfl, -, hread⟩ | ⟨a, n, v, rfl, -, hwrite⟩ | ⟨rfl, rfl⟩ | ⟨rfl, rfl⟩ | ⟨v, rfl, -, rfl⟩
  · rw [busRead_keeps hread]
    exact ⟨rfl, rfl⟩
  · rcases hwrite with ⟨-, hrun⟩ | ⟨r, -, -, -, rfl⟩ | ⟨i, -, rfl⟩
    · obtain ⟨hpending, hreset, -⟩ := runCommand_keeps_port hrun
      exact ⟨hpending, hreset⟩
    · exact ⟨writeReg_pending r v _, writeReg_inReset r v _⟩
    · exact ⟨rfl, rfl⟩
  · exact ⟨rfl, rfl⟩
  · exact leaveReset_port _
  · exact ⟨rfl, rfl⟩

theorem hostRespectsReset_tail {asserted : Bool} {e : HostEvent} {rest : List HostEvent}
    (h : hostRespectsReset asserted (e :: rest) = true) :
    hostRespectsReset (resetLevelAfter asserted e) rest = true := by
  cases e with
  | read | write | abandonedWrite =>
    simp only [hostRespectsReset, Bool.and_eq_true] at h
    obtain ⟨-, htail⟩ := h
    exact htail
  | assertReset | releaseReset => exact h

theorem step_keeps_hostRespectsReset {s t : State} (h : HostRespectsReset s) (hstep : step s = .next t) :
    HostRespectsReset t := by
  cases hp : s.pending with
  | nil =>
    obtain rfl : s = t := Host.Outcome.next.inj ((step_of_nil hp).symm.trans hstep)
    exact h
  | cons e rest =>
    obtain ⟨hrest, hreset⟩ := step_port hp hstep
    rw [HostRespectsReset, hp] at h
    rw [HostRespectsReset, hrest, hreset]
    exact hostRespectsReset_tail h

/-- Settles O49: the host goes on respecting reset, so every step of the run is a safe one. -/
theorem hostsThatRespectResetAreNeverStuckInIt : Obligations.HostsThatRespectResetAreNeverStuckInIt := by
  intro k
  induction k with
  | zero => intro s _ h; cases h
  | succ k ih =>
    intro s hs
    cases hstep : step s with
    | next t =>
      rw [core_run_succ k hstep]
      exact ih t (step_keeps_hostRespectsReset hs hstep)
    | fault f =>
      have hcore : Sys2Proof.core.step s = .fault f := hstep
      simp only [Host.Core.run, hcore]
      exact fun h => step_safe_of_hostRespectsReset hs (hstep.trans h)
    | refused r =>
      have hcore : Sys2Proof.core.step s = .refused r := hstep
      simp [Host.Core.run, hcore]

end Sys2Proof.Proofs
end

section
/-! The assembler: the accesses of the basic lines, and the runs of the pseudo-instructions' accesses on the block. -/

namespace Sys2Proof.Proofs

open Sys2Proof.Machine Sys2Proof.Claims

/-! ## The basic lines (30_encoding.md R54) -/

theorem asmByteCommand_of_le {b : Nat} (h : b ≤ 255) (make : Byte → Instr) :
    asmByteCommand make b = some [commandWrite (make (BitVec.ofNat 8 b))] := if_pos h

theorem asmByteCommand_of_gt {b : Nat} (h : 255 < b) (make : Byte → Instr) : asmByteCommand make b = none :=
  if_neg h.not_ge

theorem asmWr_of_lt {v : Nat} (h : v < 2 ^ 32) (r : RegName) :
    asmWr r v = some [.write (BitVec.ofNat 17 (regOffset r)) 4 (BitVec.ofNat 32 v)] := if_pos h

theorem asmWr_of_ge {v : Nat} (h : 2 ^ 32 ≤ v) (r : RegName) : asmWr r v = none := if_neg h.not_gt

theorem asmWindowAddr_of_lt {i : Nat} (h : i < 0x10000) : asmWindowAddr i = some (BitVec.ofNat 17 (0x10000 + i)) :=
  if_pos (by simp only [windowBase]; omega)

theorem asmWindowAddr_of_ge {i : Nat} (h : 0x10000 ≤ i) : asmWindowAddr i = none :=
  if_neg (by simp only [windowBase]; omega)

theorem asmWindowRead_of_lt {i : Nat} (h : i < 0x10000) (n : Nat) :
    asmWindowRead n i = some [.read (BitVec.ofNat 17 (0x10000 + i)) n] := by
  rw [asmWindowRead, asmWindowAddr_of_lt h]

theorem asmWindowRead_of_ge {i : Nat} (h : 0x10000 ≤ i) (n : Nat) : asmWindowRead n i = none := by
  rw [asmWindowRead, asmWindowAddr_of_ge h]

theorem asmWindowWrite_of_lt {n i v : Nat} (hi : i < 0x10000) (hv : v < 2 ^ (8 * n)) :
    asmWindowWrite n i v = some [.write (BitVec.ofNat 17 (0x10000 + i)) n (BitVec.ofNat 32 v)] := by
  rw [asmWindowWrite, asmWindowAddr_of_lt hi]
  exact if_pos hv

theorem asmWindowWrite_of_ge {n i v : Nat} (h : 2 ^ (8 * n) ≤ v ∨ 0x10000 ≤ i) : asmWindowWrite n i v = none := by
  unfold asmWindowWrite
  cases ha : asmWindowAddr i with
  | none => rfl
  | some a =>
    refine if_neg fun hv => ?_
    rcases h with hbig | hfar
    · omega
    · rw [asmWindowAddr_of_ge hfar] at ha
      cases ha

/-- Settles O54: each line is one access when its operands are in range, and none when one is not. -/
theorem assemblerLinesGiveTheirAccesses : Obligations.AssemblerLinesGiveTheirAccesses := by
  refine ⟨?_,
    fun b hb => ⟨asmByteCommand_of_le hb _, asmByteCommand_of_le hb _, asmByteCommand_of_le hb _⟩,
    fun b hb => ⟨asmByteCommand_of_gt hb _, asmByteCommand_of_gt hb _, asmByteCommand_of_gt hb _⟩,
    fun r v hv => asmWr_of_lt hv r, fun r v hv => asmWr_of_ge hv r, fun r => rfl,
    fun i hi => ⟨asmWindowRead_of_lt hi 1, asmWindowRead_of_lt hi 4⟩,
    fun i hi => ⟨asmWindowRead_of_ge hi 1, asmWindowRead_of_ge hi 4⟩,
    fun i b hi hb => asmWindowWrite_of_lt hi (by omega), fun i b h => asmWindowWrite_of_ge (h.imp_left fun hb => by omega),
    fun i v hi hv => asmWindowWrite_of_lt hi hv, fun i v h => asmWindowWrite_of_ge h⟩
  simp only [List.forall_mem_cons]
  exact ⟨rfl, rfl, rfl, rfl, rfl, rfl, rfl, rfl, fun _ h => nomatch h⟩

/-! ## CMD writes one after the other (42_control.md R77) -/

/-- What the command does is the same whatever the host does next and whatever the port answered last. -/
def IgnoresPort (i : Instr) : Prop :=
  ∀ (s t : State) (p : List HostEvent) (r : Reply), exec i s = .next t →
    exec i { s with pending := p, reply := r } = .next { t with pending := p, reply := r }

/-- A CMD write of a command is that command, in the state with the event taken and the write answered. -/
theorem step_commandWrite {s : State} {i : Instr} {rest : List HostEvent} (h : Takes s (commandWrite i) rest) :
    step s = exec i { s with pending := rest, reply := .done } := by
  obtain ⟨hreset, hp⟩ := h
  rw [step_cmdWrite hreset hp, runCommand_of_ok (decodeCommand_encodeCommand i)]

theorem runCommands_cons_next {i : Instr} {is : List Instr} {s t : State} (h : runCommands (i :: is) s = .next t) :
    ∃ u, exec i s = .next u ∧ runCommands is u = .next t := by
  cases hexec : exec i s with
  | next u => exact ⟨u, rfl, by simpa [runCommands, hexec] using h⟩
  | fault f => simp [runCommands, hexec] at h
  | refused r => simp [runCommands, hexec] at h

/-- The block runs the commands that the host writes to CMD, in order. -/
theorem run_commandWrites {is : List Instr} (his : ∀ i ∈ is, IgnoresPort i) {s t : State} (hreset : s.inReset = false)
    (h : runCommands is s = .next t) (rest : List HostEvent) (r : Reply) :
    Host.Core.run Sys2Proof.core is.length { s with pending := is.map commandWrite ++ rest, reply := r } =
      .next { t with pending := rest, reply := if is = [] then r else .done } := by
  induction is generalizing s r with
  | nil => cases h; rfl
  | cons i is ih =>
    obtain ⟨hi, his⟩ := List.forall_mem_cons.1 his
    obtain ⟨u, hexec, htail⟩ := runCommands_cons_next h
    obtain ⟨-, hkept, -⟩ := exec_keeps_port hexec
    have hstep := (step_commandWrite (s := { s with pending := (i :: is).map commandWrite ++ rest, reply := r })
      ⟨hreset, rfl⟩).trans (hi s u (is.map commandWrite ++ rest) .done hexec)
    rw [List.length_cons, core_run_succ _ hstep]
    refine (ih his (hkept.trans hreset) htail .done).trans ?_
    simp

/-! ## CRC.SEQ and LRC.SEQ (30_encoding.md R55) -/

/-- A list of byte operands assembles to one CMD write for each. -/
theorem asmByteCommands_bytes (make : Byte → Instr) (bs : List Byte) :
    asmByteCommands make (bs.map BitVec.toNat) = some ((bs.map make).map commandWrite) := by
  induction bs with
  | nil => rfl
  | cons b bs ih =>
    have hb : b.toNat ≤ 255 := by omega
    simp [asmByteCommands, asmByteCommand_of_le hb, ih, asmThen]

/-- The CMD writes of an INIT and of bytes, run on the block: what the commands leave, the writes answered. -/
theorem run_sequence {init : Instr} {make : Byte → Instr} (hinit : IgnoresPort init) (hmake : ∀ b, IgnoresPort (make b))
    {bs : List Byte} {s t : State} {es rest : List HostEvent}
    (has : asmThen (some [commandWrite init]) (asmByteCommands make (bs.map BitVec.toNat)) = some es)
    (hreset : s.inReset = false) (hp : s.pending = es ++ rest)
    (h : runCommands (init :: bs.map make) s = .next t) :
    Host.Core.run Sys2Proof.core es.length s = .next { t with pending := rest, reply := .done } := by
  rw [asmByteCommands_bytes] at has
  obtain rfl : (init :: bs.map make).map commandWrite = es := Option.some.inj has
  have his : ∀ i ∈ init :: bs.map make, IgnoresPort i := by
    simpa [hinit] using fun b _ => hmake b
  have hrun := run_commandWrites his hreset h rest s.reply
  rw [← hp] at hrun
  rw [List.length_map]
  exact hrun

/-! ## WRBUF -/

/-- The byte writes of the buffer window from index `i` on. -/
def byteWrites : Nat → List Byte → List HostEvent
  | _, [] => []
  | i, b :: bs => .write (BitVec.ofNat 17 (0x10000 + i)) 1 (BitVec.ofNat 32 b.toNat) :: byteWrites (i + 1) bs

theorem byteWrites_length (i : Nat) (bs : List Byte) : (byteWrites i bs).length = bs.length := by
  induction bs generalizing i with
  | nil => rfl
  | cons b bs ih => rw [byteWrites, List.length_cons, ih, List.length_cons]

theorem asmWriteBytes_bytes {i : Nat} {bs : List Byte} (h : i + bs.length ≤ 0x10000) :
    asmWriteBytes i (bs.map BitVec.toNat) = some (byteWrites i bs) := by
  induction bs generalizing i with
  | nil => rfl
  | cons b bs ih =>
    rw [List.length_cons] at h
    have hwrite := asmWindowWrite_of_lt (n := 1) (i := i) (v := b.toNat) (by omega) b.isLt
    rw [List.map_cons, asmWriteBytes, hwrite, ih (by omega)]
    rfl

/-- Bytes that fit the buffer assemble: CAP is at most 65535 (00_scope.md R5). -/
theorem asmWriteBytes_of_fits {s : State} {i : Nat} {bs : List Byte} (h : i + bs.length ≤ capacity s) :
    asmWriteBytes i (bs.map BitVec.toNat) = some (byteWrites i bs) := by
  have hfits : capacity s ≤ 65535 := s.cfg.fitsLength
  exact asmWriteBytes_bytes (by omega)

/-- A number below the width of a field is read back from the word that it was written in. -/
theorem extractLsb'_ofNat {n w : Nat} (hn : n < 2 ^ w) (hw : w ≤ 32) :
    ((BitVec.ofNat 32 n).extractLsb' 0 w).toNat = n := by
  have h32 : 2 ^ w ≤ 2 ^ 32 := Nat.pow_le_pow_right (by decide) hw
  rw [BitVec.extractLsb'_toNat, BitVec.toNat_ofNat, Nat.mod_eq_of_lt (hn.trans_le h32), Nat.shiftRight_zero,
    Nat.mod_eq_of_lt hn]

theorem extractLsb'_ofNat_byte (b : Byte) : (BitVec.ofNat 32 b.toNat).extractLsb' 0 8 = b :=
  BitVec.eq_of_toNat_eq (extractLsb'_ofNat b.isLt (by decide))

/-- A byte write of the buffer window stores the byte. -/
theorem step_writeByte {s : State} {i : Nat} {b : Byte} {rest : List HostEvent} (hi : i < capacity s)
    (h : Takes s (.write (BitVec.ofNat 17 (0x10000 + i)) 1 (BitVec.ofNat 32 b.toNat)) rest) :
    step s = .next { s with pending := rest, reply := .done, fbuf := s.fbuf.write i b } := by
  have hfits : capacity s ≤ 65535 := s.cfg.fitsLength
  have haddr : (BitVec.ofNat 17 (0x10000 + i)).toNat = 0x10000 + i := by
    rw [BitVec.toNat_ofNat, Nat.mod_eq_of_lt (by omega)]
  have hbyte : splitBytes 1 (BitVec.ofNat 32 b.toNat) = [b] := congrArg ([·]) (extractLsb'_ofNat_byte b)
  rw [step_writeWindow (windowAccess?_of_admitted haddr ⟨.inl rfl, Nat.mod_one _, hi⟩) h, hbyte]
  rfl

/-- The byte writes store their bytes, and the run goes on behind them. -/
theorem run_byteWrites (k : Nat) {i : Nat} {bs : List Byte} {s : State} {rest : List HostEvent}
    (hcap : i + bs.length ≤ capacity s) (hreset : s.inReset = false) (hp : s.pending = byteWrites i bs ++ rest) :
    Host.Core.run Sys2Proof.core (k + bs.length) s =
      Host.Core.run Sys2Proof.core k { s with
        fbuf := s.fbuf.writeRange i bs
        pending := rest
        reply := if bs = [] then s.reply else .done } := by
  induction bs generalizing i s with
  | nil =>
    obtain rfl : s.pending = rest := hp
    rfl
  | cons b bs ih =>
    rw [List.length_cons] at hcap
    have hstep := step_writeByte (s := s) (i := i) (b := b) (rest := byteWrites (i + 1) bs ++ rest) (by omega) ⟨hreset, hp⟩
    rw [List.length_cons, ← Nat.add_assoc, core_run_succ _ hstep]
    refine Eq.trans (ih (i := i + 1) ?_ hreset rfl) ?_
    · exact (show i + 1 + bs.length ≤ capacity s by omega)
    · simp [Memory.writeRange]

/-- The byte writes alone. -/
theorem run_byteWrites_end {i : Nat} {bs : List Byte} {s : State} {rest : List HostEvent}
    (hcap : i + bs.length ≤ capacity s) (hreset : s.inReset = false) (hp : s.pending = byteWrites i bs ++ rest) :
    Host.Core.run Sys2Proof.core (byteWrites i bs).length s =
      .next { s with
        fbuf := s.fbuf.writeRange i bs
        pending := rest
        reply := if bs = [] then s.reply else .done } := by
  rw [byteWrites_length, ← Nat.zero_add bs.length]
  exact run_byteWrites 0 hcap hreset hp

/-! ## Register writes -/

/-- A `WR` of a read-write register stores its field, and the run goes on behind it. -/
theorem run_writeReg (k : Nat) {s : State} {r : RegName} {v : Word} {rest : List HostEvent} (hr : regWritable r = true)
    (hc : r ≠ .cmd) (hreset : s.inReset = false)
    (hp : s.pending = .write (BitVec.ofNat 17 (regOffset r)) 4 v :: rest) :
    Host.Core.run Sys2Proof.core (k + 1) s =
      Host.Core.run Sys2Proof.core k { writeReg r v s with pending := rest, reply := .done } :=
  core_run_succ k (step_writeReg hr hc ⟨hreset, hp⟩)

theorem run_setMode {m : Framing} {s : State} {es rest : List HostEvent} (has : assemble (.setMode m) = some es)
    (hreset : s.inReset = false) (hp : s.pending = es ++ rest) :
    Host.Core.run Sys2Proof.core es.length s = .next { s with mode := m, pending := rest, reply := .done } := by
  cases m <;> cases has <;> exact run_writeReg 0 (r := .mode) rfl (by decide) hreset hp

/-! ## FRAME and LOADFRAME -/

/-- The accesses of FRAME, its payload inside the buffer. -/
theorem assemble_frame {a f : Byte} {q : List Byte} {s : State} (hcap : 2 + q.length ≤ capacity s) :
    assemble (.frame a.toNat f.toNat (q.map BitVec.toNat)) =
      some (.write (BitVec.ofNat 17 (regOffset .addr)) 4 (BitVec.ofNat 32 a.toNat) ::
        .write (BitVec.ofNat 17 (regOffset .fc)) 4 (BitVec.ofNat 32 f.toNat) ::
        .write (BitVec.ofNat 17 (regOffset .plen)) 4 (BitVec.ofNat 32 q.length) :: byteWrites 2 q) := by
  have hfits : capacity s ≤ 65535 := s.cfg.fitsLength
  rw [assemble, asmWr_of_lt (by omega), asmWr_of_lt (by omega), List.length_map, asmWr_of_lt (by omega),
    asmWriteBytes_of_fits hcap]
  rfl

/-- The accesses of LOADFRAME, its bytes inside the buffer. -/
theorem assemble_loadFrame {bs : List Byte} {s : State} (hcap : bs.length ≤ capacity s) :
    assemble (.loadFrame (bs.map BitVec.toNat)) =
      some (byteWrites 0 bs ++ [.write (BitVec.ofNat 17 (regOffset .flen)) 4 (BitVec.ofNat 32 bs.length)]) := by
  have hfits : capacity s ≤ 65535 := s.cfg.fitsLength
  rw [assemble, List.length_map, asmWr_of_lt (by omega), asmWriteBytes_of_fits (s := s) (by omega)]
  rfl

/-- The accesses of FRAME run: the three registers, then the payload from index 2 on. -/
theorem run_frame {a f : Byte} {q : List Byte} {s : State} {es rest : List HostEvent}
    (has : assemble (.frame a.toNat f.toNat (q.map BitVec.toNat)) = some es) (hcap : 2 + q.length ≤ capacity s)
    (hreset : s.inReset = false) (hp : s.pending = es ++ rest) :
    Host.Core.run Sys2Proof.core es.length s =
      .next { s with
        addr := a
        fc := f
        plen := (BitVec.ofNat 32 q.length).extractLsb' 0 16
        fbuf := s.fbuf.writeRange 2 q
        pending := rest
        reply := .done } := by
  rw [assemble_frame hcap] at has
  cases has
  simp only [List.length_cons]
  refine (run_writeReg _ (r := .addr) rfl (by decide) hreset hp).trans ?_
  refine Eq.trans (run_writeReg _ (r := .fc) rfl (by decide) hreset rfl) ?_
  refine Eq.trans (run_writeReg _ (r := .plen) rfl (by decide) hreset rfl) ?_
  refine Eq.trans (run_byteWrites_end hcap hreset rfl) ?_
  simp only [writeReg, extractLsb'_ofNat_byte, ite_self]

/-- The accesses of LOADFRAME run: the bytes from index 0 on, then their number. -/
theorem run_loadFrame {bs : List Byte} {s : State} {es rest : List HostEvent}
    (has : assemble (.loadFrame (bs.map BitVec.toNat)) = some es) (hcap : bs.length ≤ capacity s)
    (hreset : s.inReset = false) (hp : s.pending = es ++ rest) :
    Host.Core.run Sys2Proof.core es.length s =
      .next { s with
        flen := (BitVec.ofNat 32 bs.length).extractLsb' 0 16
        fbuf := s.fbuf.writeRange 0 bs
        pending := rest
        reply := .done } := by
  rw [assemble_loadFrame hcap] at has
  cases has
  rw [List.append_assoc] at hp
  rw [List.length_append, byteWrites_length, List.length_singleton, Nat.add_comm]
  refine (run_byteWrites 1 (by omega) hreset hp).trans ?_
  exact run_writeReg 0 (r := .flen) rfl (by decide) hreset rfl

/-- A count of buffer bytes is read back from the 16-bit field that it was written in. -/
theorem count_toNat {s : State} {n : Nat} (h : n ≤ capacity s) : ((BitVec.ofNat 32 n).extractLsb' 0 16).toNat = n := by
  have hfits : capacity s ≤ 65535 := s.cfg.fitsLength
  exact extractLsb'_ofNat (by omega) (by decide)

/-- Settles O55: the accesses of each line are assembled, and run one after the other. -/
theorem pseudoInstructionsDoWhatTheyAreFor : Obligations.PseudoInstructionsDoWhatTheyAreFor := by
  refine ⟨?_, ?_, fun _ _ _ _ => run_setMode, ?_, ?_, ?_⟩
  · intro bs s es rest has hreset hp
    exact run_sequence (fun _ _ _ _ h => by cases h; rfl) (fun _ _ _ _ _ h => by cases h; rfl) has hreset hp
      (runCommands_crcStream bs s)
  · intro bs s es rest has hreset hp
    exact run_sequence (fun _ _ _ _ h => by cases h; rfl) (fun _ _ _ _ _ h => by cases h; rfl) has hreset hp
      (runCommands_lrcStream bs s)
  · intro i bs s es rest has hcap hreset hp
    rw [assemble, asmWriteBytes_of_fits hcap] at has
    cases has
    exact ⟨_, run_byteWrites_end hcap hreset hp, fun _ hk => read_writeRange_inside s.fbuf i bs hk,
      fun _ hj => read_writeRange_other s.fbuf i bs hj, rfl⟩
  · intro a f q s es rest has hcap hreset hp
    exact ⟨_, run_frame has hcap hreset hp, fun _ hk => read_writeRange_inside s.fbuf 2 q hk,
      count_toNat (s := s) (by omega), fun _ hj => read_writeRange_other s.fbuf 2 q hj, rfl⟩
  · intro bs s es rest has hcap hreset hp
    exact ⟨_, run_loadFrame has hcap hreset hp, fun _ hk => read_writeRange_inside s.fbuf 0 bs hk,
      count_toNat hcap, fun _ hj => read_writeRange_other s.fbuf 0 bs (.inr (by omega)), rfl⟩

end Sys2Proof.Proofs
end
